-- ==== Sys2Proof/Word.lean ====
section
/-! DEFINITION. The word and byte types of the MD5-HMAC engine (spec/00_scope.md rules R7, R8, R9).

All values are unsigned and bits are numbered from 0, the least significant.  The datapath's addition `+32` is `BitVec`
addition, which wraps modulo 2^32 without carry, overflow flag or fault; `&`, `|`, `^` and `~` are `&&&`, `|||`, `^^^`
and `~~~` at width 32. -/

namespace Sys2Proof

/-- A word of 32 bits: state words, command words, port registers (R7, R8). -/
abbrev Word := BitVec 32

/-- A byte of 8 bits (R8). -/
abbrev Byte := BitVec 8

end Sys2Proof
end

