-- ==== Sys2Proof/Syntax.lean ====
section
/-! DEFINITION. The abstract syntax: the eleven commands (spec/30_encoding.md rule R93), the host's transactions
(spec/00_scope.md rule R5), the registers of the port (spec/10_state.md rule R31), the accesses of a bus that bridges the port
(spec/20_memory.md rule R66) and the lines of a host program (spec/30_encoding.md rules R98, R99). -/

namespace Sys2Proof

/-- The eleven commands of MD5E command set 1.0, in the order of R93. -/
inductive Instr where
  /-- RST, soft reset (R200). -/
  | rst
  /-- MCLR, clear the message store (R120). -/
  | mclr
  /-- MAPP imm8, append one byte to the message store (R121). -/
  | mapp (imm8 : Byte)
  /-- KCLR, clear the key store (R122). -/
  | kclr
  /-- KAPP imm8, append one byte to the key (R123). -/
  | kapp (imm8 : Byte)
  /-- INIT, initialise the state (R142). -/
  | init
  /-- PAD, pad the message store (R152). -/
  | pad
  /-- CBLK, compress the next block (R150). -/
  | cblk
  /-- ENC, encode the state into the digest register (R157). -/
  | enc
  /-- HASH, digest of the message store (R181). -/
  | hash
  /-- HMAC, keyed digest of the message store (R187). -/
  | hmac
deriving DecidableEq, Repr

/-- The two formats (R91): no operand, or a byte operand. -/
inductive Format where
  | N
  | B
deriving DecidableEq, Repr

/-- The named registers of the port, numbers 0 to 16 in this order (R31). -/
inductive PortReg where
  | cmd
  | status
  | fcmd
  | mlen
  | klen
  | blk
  | mptr
  | mbyte
  | sta
  | stb
  | stc
  | std
  | dig0
  | dig1
  | dig2
  | dig3
  | mcap
deriving DecidableEq, Repr

/-- The host's four transactions (R5).  A register number is one of sixty-four: higher numbers do not exist on the port (R39). -/
inductive Transaction where
  /-- `CmdWrite(w)` (R203). -/
  | cmdWrite (w : Word)
  /-- `RegWrite(n, v)` (R202). -/
  | regWrite (n : Fin 64) (v : Word)
  /-- `RegRead(n)` (R201). -/
  | regRead (n : Fin 64)
  /-- `Reset`, the reset input (R204). -/
  | reset
deriving DecidableEq, Repr

/-- An access of a byte-addressed bus to the engine's window, by byte offset from its base and width in bytes (R66). -/
inductive BusAccess where
  | read (offset width : Nat)
  | write (offset width : Nat) (v : Word)
deriving DecidableEq, Repr

/-- A register operand of RD or WR: a name or a number (R98). -/
inductive RegArg where
  | name (r : PortReg)
  | number (n : Nat)
deriving DecidableEq, Repr

/-- One line of a host program (R98, R99), its operands as the programmer wrote them; `AsmLine.wellFormed` checks their ranges. -/
inductive AsmLine where
  /-- A command without operand, written as its mnemonic. -/
  | command (i : Instr)
  | mapp (byte : Nat)
  | kapp (byte : Nat)
  /-- `CMD word`: any 32-bit word. -/
  | cmd (word : Nat)
  | rd (r : RegArg)
  | wr (r : RegArg) (word : Nat)
  | reset
  | mstr (text : List Char)
  | mbytes (bytes : List Nat)
  | mfill (byte count : Nat)
  | kstr (text : List Char)
  | kbytes (bytes : List Nat)
  | kfill (byte count : Nat)
  | msg (text : List Char)
  | key (text : List Char)
  | rddig
  | md5 (text : List Char)
deriving DecidableEq, Repr

/-- The format of a command (R93). -/
def Instr.format : Instr → Format
  | .mapp _ => .B
  | .kapp _ => .B
  | .rst => .N
  | .mclr => .N
  | .kclr => .N
  | .init => .N
  | .pad => .N
  | .cblk => .N
  | .enc => .N
  | .hash => .N
  | .hmac => .N

end Sys2Proof
end

