-- ==== Sys2Proof/WellFormed.lean ====
section
/-! DEFINITION. What is well formed: command words (spec/30_encoding.md rules R90, R91, R94) and program lines (R98, R99).

A term of `Instr` is well formed by its type: its only operand is a byte, and every byte is an operand (R92). -/

namespace Sys2Proof

/-- The format an opcode has, for the eleven opcodes of R93. -/
def formatOfOpcode (op : Nat) : Option Format :=
  if op ∈ [0x11, 0x19] then some .B
  else if op ∈ [0x01, 0x10, 0x18, 0x20, 0x21, 0x22, 0x23, 0x30, 0x31] then some .N
  else none

/-- A command word is legal (R94): bits 31:16 are zero, bits 7:0 are one of the eleven opcodes, and bits 15:8 are zero where
the opcode has format N. -/
def legalWord (w : Word) : Bool :=
  w.extractLsb' 16 16 == 0#16 &&
    match formatOfOpcode (w.extractLsb' 0 8).toNat with
    | some .B => true
    | some .N => w.extractLsb' 8 8 == 0#8
    | none => false

/-- ASCII characters only (R99). -/
def asciiText (t : List Char) : Bool := t.all fun c => c.toNat < 128

/-- A register operand names a register of the port: numbers above 63 do not exist (R39). -/
def RegArg.wellFormed : RegArg → Bool
  | .name _ => true
  | .number n => n < 64

/-- The operand ranges of a program line (R98, R99): a byte is 0 to 255, a word has 32 bits, a string is ASCII, and the bare
mnemonics are those of the commands without operand. -/
def AsmLine.wellFormed : AsmLine → Bool
  | .command i => i.format == .N
  | .mapp b => b < 256
  | .kapp b => b < 256
  | .cmd w => w < 2 ^ 32
  | .rd r => r.wellFormed
  | .wr r w => r.wellFormed && w < 2 ^ 32
  | .reset => true
  | .mstr t => asciiText t
  | .mbytes bs => bs != [] && bs.all (· < 256)
  | .mfill b _ => b < 256
  | .kstr t => asciiText t
  | .kbytes bs => bs != [] && bs.all (· < 256)
  | .kfill b _ => b < 256
  | .msg t => asciiText t
  | .key t => asciiText t
  | .rddig => true
  | .md5 t => asciiText t

end Sys2Proof
end

