-- ==== Sys2Proof/Decode.lean ====
section
/-! DEFINITION. Command encoding (spec/30_encoding.md rules R90 to R96) and the register numbers of the port
(spec/10_state.md rule R31). -/

namespace Sys2Proof

/-- Why a word is illegal (R223): "a reserved bit set, an unknown opcode, or a non-zero `imm8` on an N-format opcode". -/
inductive Reject where
  | reservedBits
  | unknownOpcode
  | immediateNotZero
deriving DecidableEq, Repr

/-- The field `rsv`, bits 31:16 (R90). -/
def rsvField (w : Word) : BitVec 16 := w.extractLsb' 16 16

/-- The field `imm8`, bits 15:8 (R90, R92): an unsigned byte used as it is. -/
def imm8Field (w : Word) : Byte := w.extractLsb' 8 8

/-- The field `op`, bits 7:0 (R90). -/
def opField (w : Word) : Byte := w.extractLsb' 0 8

/-- A format N command: legal only with `imm8 = 0` (R91). -/
def withoutOperand (w : Word) (i : Instr) : Except Reject Instr :=
  if imm8Field w = 0#8 then .ok i else .error .immediateNotZero

/-- The decoding procedure (R96), total on all 32-bit words. -/
def decode (w : Word) : Except Reject Instr :=
  if rsvField w ≠ 0#16 then .error .reservedBits
  else
    match (opField w).toNat with
    | 0x11 => .ok (.mapp (imm8Field w))
    | 0x19 => .ok (.kapp (imm8Field w))
    | 0x01 => withoutOperand w .rst
    | 0x10 => withoutOperand w .mclr
    | 0x18 => withoutOperand w .kclr
    | 0x20 => withoutOperand w .init
    | 0x21 => withoutOperand w .pad
    | 0x22 => withoutOperand w .cblk
    | 0x23 => withoutOperand w .enc
    | 0x30 => withoutOperand w .hash
    | 0x31 => withoutOperand w .hmac
    | _ => .error .unknownOpcode

/-- The opcode of a command (R93). -/
def opcode : Instr → Byte
  | .rst => 0x01#8
  | .mclr => 0x10#8
  | .mapp _ => 0x11#8
  | .kclr => 0x18#8
  | .kapp _ => 0x19#8
  | .init => 0x20#8
  | .pad => 0x21#8
  | .cblk => 0x22#8
  | .enc => 0x23#8
  | .hash => 0x30#8
  | .hmac => 0x31#8

/-- The immediate of a command: its byte operand, or zero in format N (R91). -/
def immediate : Instr → Byte
  | .mapp b => b
  | .kapp b => b
  | .rst => 0x00#8
  | .mclr => 0x00#8
  | .kclr => 0x00#8
  | .init => 0x00#8
  | .pad => 0x00#8
  | .cblk => 0x00#8
  | .enc => 0x00#8
  | .hash => 0x00#8
  | .hmac => 0x00#8

/-- The command word `w = op + 256 * imm8` (R91, R96). -/
def encode (i : Instr) : Word := (opcode i).zeroExtend 32 + 256#32 * (immediate i).zeroExtend 32

/-- The mnemonic of a command (R93). -/
def mnemonic : Instr → String
  | .rst => "RST"
  | .mclr => "MCLR"
  | .mapp _ => "MAPP"
  | .kclr => "KCLR"
  | .kapp _ => "KAPP"
  | .init => "INIT"
  | .pad => "PAD"
  | .cblk => "CBLK"
  | .enc => "ENC"
  | .hash => "HASH"
  | .hmac => "HMAC"

/-- A row of the machine-readable opcode table: a word matches the row when `w & mask = pattern` (R91). -/
structure OpcodeRow where
  mnemonic : String
  pattern : Word
  mask : Word
deriving DecidableEq, Repr

/-- The opcode table, spec/opcode_table.json. -/
def opcodeTable : List OpcodeRow :=
  [⟨"RST", 0x00000001#32, 0xFFFFFFFF#32⟩, ⟨"MCLR", 0x00000010#32, 0xFFFFFFFF#32⟩, ⟨"MAPP", 0x00000011#32, 0xFFFF00FF#32⟩,
   ⟨"KCLR", 0x00000018#32, 0xFFFFFFFF#32⟩, ⟨"KAPP", 0x00000019#32, 0xFFFF00FF#32⟩, ⟨"INIT", 0x00000020#32, 0xFFFFFFFF#32⟩,
   ⟨"PAD", 0x00000021#32, 0xFFFFFFFF#32⟩, ⟨"CBLK", 0x00000022#32, 0xFFFFFFFF#32⟩, ⟨"ENC", 0x00000023#32, 0xFFFFFFFF#32⟩,
   ⟨"HASH", 0x00000030#32, 0xFFFFFFFF#32⟩, ⟨"HMAC", 0x00000031#32, 0xFFFFFFFF#32⟩]

/-- A word matches a row of the table. -/
def OpcodeRow.fits (r : OpcodeRow) (w : Word) : Bool := w &&& r.mask == r.pattern

/-- The decoder on a table row's bits, numbered as the table numbers them: a command is one 32-bit word, and the bits above
`nbits` are zero. -/
def decodeTableWord (nbits w : Nat) : Option Instr :=
  if nbits ≤ 32 ∧ w < 2 ^ nbits then (decode (BitVec.ofNat 32 w)).toOption else none

/-- The registers of the port in the order of their numbers (R31). -/
def portRegs : List PortReg :=
  [.cmd, .status, .fcmd, .mlen, .klen, .blk, .mptr, .mbyte, .sta, .stb, .stc, .std, .dig0, .dig1, .dig2, .dig3, .mcap]

/-- The register with a number; `none` for the unmapped numbers 17 to 63 (R31, R39). -/
def portRegOf (n : Fin 64) : Option PortReg := portRegs[n.val]?

/-- The number of a register (R31). -/
def PortReg.number : PortReg → Fin 64
  | .cmd => 0
  | .status => 1
  | .fcmd => 2
  | .mlen => 3
  | .klen => 4
  | .blk => 5
  | .mptr => 6
  | .mbyte => 7
  | .sta => 8
  | .stb => 9
  | .stc => 10
  | .std => 11
  | .dig0 => 12
  | .dig1 => 13
  | .dig2 => 14
  | .dig3 => 15
  | .mcap => 16

end Sys2Proof
end

