-- ==== Sys2Proof/Config.lean ====
section
/-! DEFINITION. What an implementation of the engine fixes, and the values the spec leaves free.

The one open parameter is MSG_CAP (spec/00_scope.md rule R6).  It is not a constant here: the model takes it as an argument,
carried unchanged in the state (`State.msgCap`, assumption 1), so that a statement about every state is a statement about
every capacity. -/

namespace Sys2Proof.Config

/-- The legal capacities of R6: `64 ≤ MSG_CAP ≤ 2^32 - 1`; the upper bound is the width of the word. -/
abbrev LegalCapacity (cap : Word) : Prop := 64 ≤ cap.toNat

/-- DESIGN CHOICE (assumption 1), unsafe if a statement rests on it: the capacity of the one state that must be named
`State.reset`.  It is the value of the spec's own examples (spec/92_eei_decisions.md D29). -/
def exampleMsgCap : Word := 4096#32

/-- DESIGN CHOICE (assumption 3): what a storage byte reads as that nothing has written.  The spec calls it unspecified and
unobservable and allows any fixed filler (spec/10_state.md rule R42). -/
def unlistedByte : Byte := 0x00#8

/-- DESIGN CHOICE (assumption 2): what each of A to D holds at reset.  Unspecified and unobservable while SV = 0 (R42). -/
def resetWord : Word := 0x00000000#32

/-- DESIGN CHOICE (assumption 2): what each digest byte holds at reset.  Unspecified and unobservable while DV = 0 (R42). -/
def resetByte : Byte := 0x00#8

/-- Free values, safe: the words HMAC leaves in the storage of A to D (spec/42_hash_hmac.md rule R187, "clobbered").  Nothing
constrains them; a counter in the state picks fresh ones each time (assumption 4). -/
opaque freeWord : Nat → Word

end Sys2Proof.Config
end

