-- ==== Sys2Proof/Machine/Bits.lean ====
section
/-! DEFINITION. Rotation, widening and the explicit little-endian codecs (spec/00_scope.md rules R10, R11, R12). -/

namespace Sys2Proof.Machine

/-- A rotation amount: the domain of `rotl32` is 1 to 31 (R10), so that no other amount can be written. -/
abbrev RotAmount := { s : Nat // 1 ≤ s ∧ s ≤ 31 }

/-- `rotl32(x, s)` (R10): the 32-bit left rotation. -/
def rotl32 (x : Word) (s : RotAmount) : Word := (x <<< s.val) ||| (x >>> (32 - s.val))

/-- `zext_32(v)` of a byte (R12): the only widening the engine does. -/
def zext32 (b : Byte) : Word := b.zeroExtend 32

/-- `sext_N(v)` (R12), defined for completeness: no rule of the engine uses it. -/
def sext (n : Nat) {k : Nat} (v : BitVec k) : BitVec n := v.signExtend n

/-- Byte `t` of a value, byte 0 being bits 7:0 (R8, R11). -/
def byteOf {k : Nat} (v : BitVec k) (t : Nat) : Byte := v.extractLsb' (8 * t) 8

/-- `LE32enc(w)` (R11): four bytes, low-order byte first. -/
def le32enc (w : Word) : List Byte := [byteOf w 0, byteOf w 1, byteOf w 2, byteOf w 3]

/-- `LE32dec(b0, b1, b2, b3)` (R11): `b0 + 2^8 b1 + 2^16 b2 + 2^24 b3`. -/
def le32dec (b0 b1 b2 b3 : Byte) : Word :=
  zext32 b0 + (zext32 b1 <<< 8) + (zext32 b2 <<< 16) + (zext32 b3 <<< 24)

/-- `LE64enc(v)` (R11): eight bytes, low-order byte first. -/
def le64enc (v : BitVec 64) : List Byte :=
  [byteOf v 0, byteOf v 1, byteOf v 2, byteOf v 3, byteOf v 4, byteOf v 5, byteOf v 6, byteOf v 7]

end Sys2Proof.Machine
end

