-- ==== Sys2Proof/Machine/Md5.lean ====
section
/-! DEFINITION. The MD5 primitives as total pure functions: spec/41_md5_primitives.md rules R141 to R151 and R156, and the
digest of a byte sequence, spec/42_hash_hmac.md rule R180.  They stand outside the step relation (R13), so that they can be
evaluated on their own. -/

namespace Sys2Proof.Machine

/-- The document's DigestState: the four general registers A, B, C, D (R20). -/
structure DigestState where
  a : Word
  b : Word
  c : Word
  d : Word
deriving DecidableEq, Repr

/-- The numbered view `x[0] = A, x[1] = B, x[2] = C, x[3] = D` (R20). -/
def DigestState.x (st : DigestState) : Fin 4 → Word
  | 0 => st.a
  | 1 => st.b
  | 2 => st.c
  | 3 => st.d

/-- The initial state (R141). -/
def iv : DigestState := ⟨0x67452301#32, 0xefcdab89#32, 0x98badcfe#32, 0x10325476#32⟩

/-- One of the four phases of sixteen steps, named by its nonlinear function (R143, R145). -/
inductive Round where
  | F
  | G
  | H
  | I
deriving DecidableEq, Repr

/-- `round = i / 16` (R143). -/
def roundOf (i : Fin 64) : Round :=
  match i.val / 16 with
  | 0 => .F
  | 1 => .G
  | 2 => .H
  | _ => .I

/-- The nonlinear function `Fn(i, b, c, d)` (R143). -/
def nonlinear (i : Fin 64) (b c d : Word) : Word :=
  match roundOf i with
  | .F => (b &&& c) ||| (~~~b &&& d)
  | .G => (b &&& d) ||| (c &&& ~~~d)
  | .H => b ^^^ c ^^^ d
  | .I => c ^^^ (b ||| ~~~d)

/-- The message-word index `g(i)` (R144). -/
def wordIndex (i : Fin 64) : Fin 16 :=
  match roundOf i with
  | .F => Fin.ofNat 16 i.val
  | .G => Fin.ofNat 16 (5 * i.val + 1)
  | .H => Fin.ofNat 16 (3 * i.val + 5)
  | .I => Fin.ofNat 16 (7 * i.val)

/-- The shift pattern of a round: four amounts, used four times (R146). -/
def shiftPattern : Round → Vector RotAmount 4
  | .F => #v[⟨7, by decide⟩, ⟨12, by decide⟩, ⟨17, by decide⟩, ⟨22, by decide⟩]
  | .G => #v[⟨5, by decide⟩, ⟨9, by decide⟩, ⟨14, by decide⟩, ⟨20, by decide⟩]
  | .H => #v[⟨4, by decide⟩, ⟨11, by decide⟩, ⟨16, by decide⟩, ⟨23, by decide⟩]
  | .I => #v[⟨6, by decide⟩, ⟨10, by decide⟩, ⟨15, by decide⟩, ⟨21, by decide⟩]

/-- The shift amount `S(i) = pattern[i / 16][i mod 4]` (R146). -/
def shiftAmount (i : Fin 64) : RotAmount := (shiftPattern (roundOf i)).get (Fin.ofNat 4 i.val)

/-- The sixteen constants of a round, the literals of R147. -/
def roundConstants : Round → Vector Word 16
  | .F => #v[
      0xd76aa478#32, 0xe8c7b756#32, 0x242070db#32, 0xc1bdceee#32,
      0xf57c0faf#32, 0x4787c62a#32, 0xa8304613#32, 0xfd469501#32,
      0x698098d8#32, 0x8b44f7af#32, 0xffff5bb1#32, 0x895cd7be#32,
      0x6b901122#32, 0xfd987193#32, 0xa679438e#32, 0x49b40821#32]
  | .G => #v[
      0xf61e2562#32, 0xc040b340#32, 0x265e5a51#32, 0xe9b6c7aa#32,
      0xd62f105d#32, 0x02441453#32, 0xd8a1e681#32, 0xe7d3fbc8#32,
      0x21e1cde6#32, 0xc33707d6#32, 0xf4d50d87#32, 0x455a14ed#32,
      0xa9e3e905#32, 0xfcefa3f8#32, 0x676f02d9#32, 0x8d2a4c8a#32]
  | .H => #v[
      0xfffa3942#32, 0x8771f681#32, 0x6d9d6122#32, 0xfde5380c#32,
      0xa4beea44#32, 0x4bdecfa9#32, 0xf6bb4b60#32, 0xbebfbc70#32,
      0x289b7ec6#32, 0xeaa127fa#32, 0xd4ef3085#32, 0x04881d05#32,
      0xd9d4d039#32, 0xe6db99e5#32, 0x1fa27cf8#32, 0xc4ac5665#32]
  | .I => #v[
      0xf4292244#32, 0x432aff97#32, 0xab9423a7#32, 0xfc93a039#32,
      0x655b59c3#32, 0x8f0ccc92#32, 0xffeff47d#32, 0x85845dd1#32,
      0x6fa87e4f#32, 0xfe2ce6e0#32, 0xa3014314#32, 0x4e0811a1#32,
      0xf7537e82#32, 0xbd3af235#32, 0x2ad7d2bb#32, 0xeb86d391#32]

/-- The round constant `K(i)` (R147). -/
def roundConstant (i : Fin 64) : Word := (roundConstants (roundOf i)).get (Fin.ofNat 16 i.val)

/-- The sixteen words of a block (R64, R149): word `j` is the little-endian value of bytes `4j` to `4j + 3`.
The stated domain is a block of exactly 64 bytes; past the end of a shorter list a byte counts as zero. -/
def blockWords (blk : List Byte) : Vector Word 16 :=
  Vector.ofFn fun j : Fin 16 =>
    le32dec (blk.getD (4 * j.val) 0) (blk.getD (4 * j.val + 1) 0) (blk.getD (4 * j.val + 2) 0) (blk.getD (4 * j.val + 3) 0)

/-- One step `md5_step(i, (a, b, c, d), W)` (R148). -/
def md5Step (w : Vector Word 16) (st : DigestState) (i : Fin 64) : DigestState :=
  let f := nonlinear i st.b st.c st.d
  let t := st.a + f + roundConstant i + w.get (wordIndex i)
  let r := rotl32 t (shiftAmount i)
  ⟨st.d, st.b + r, st.b, st.c⟩

/-- One block compression `md5_compress(st, blk)` (R149): sixty-four steps in order, then the saved state added back.
Irreducible, so that no proof unrolls sixty-four steps by accident; the kernel still evaluates it. -/
@[irreducible] def md5Compress (st : DigestState) (blk : List Byte) : DigestState :=
  let out := (List.finRange 64).foldl (md5Step (blockWords blk)) st
  ⟨st.a + out.a, st.b + out.b, st.c + out.c, st.d + out.d⟩

/-- `z(L) = (55 - L) mod 64`, the mathematical remainder (R151, R9). -/
def padZeros (len : Nat) : Nat := ((55 - (len : Int)) % 64).toNat

/-- The padding tail `pad_tail(L)` (R151): the marker, `z(L)` zero bytes and the bit length modulo 2^64, little-endian. -/
def padTail (len : Nat) : List Byte :=
  0x80#8 :: (List.replicate (padZeros len) 0x00#8 ++ le64enc (BitVec.ofNat 64 (8 * len)))

/-- The digest of a state `md5_encode(a, b, c, d)` (R156): A, then B, then C, then D, each low-order byte first. -/
def md5Encode (st : DigestState) : Vector Byte 16 :=
  #v[byteOf st.a 0, byteOf st.a 1, byteOf st.a 2, byteOf st.a 3,
     byteOf st.b 0, byteOf st.b 1, byteOf st.b 2, byteOf st.b 3,
     byteOf st.c 0, byteOf st.c 1, byteOf st.c 2, byteOf st.c 3,
     byteOf st.d 0, byteOf st.d 1, byteOf st.d 2, byteOf st.d 3]

/-- Block `k` of a byte sequence: `p[64k .. 64k + 64)` (R180). -/
def blockOf (p : List Byte) (k : Nat) : List Byte := (p.drop (64 * k)).take 64

/-- The state after `n` blocks of `p` from block `k` on, in order `k`, `k + 1`, ... (R180). -/
def compressBlocks (st : DigestState) (p : List Byte) (k : Nat) : Nat → DigestState
  | 0 => st
  | n + 1 => compressBlocks (md5Compress st (blockOf p k)) p (k + 1) n

/-- The final state of the digest of `m`: every block of its padded form compressed, from the initial constants (R180). -/
def md5Final (m : List Byte) : DigestState :=
  let p := m ++ padTail m.length
  compressBlocks iv p 0 (p.length / 64)

/-- `md5(m)` (R180): 16 bytes.  Irreducible for the same reason as `md5Compress`. -/
@[irreducible] def md5 (m : List Byte) : Vector Byte 16 := md5Encode (md5Final m)

end Sys2Proof.Machine
end

