-- ==== Sys2Proof/Machine/State.lean ====
section
/-! DEFINITION. The state of the engine (spec/10_state.md), as plain data, and its reset value (R42).

Not state, and so not fields (R14, R40, R41): the tables K and S, the initial constants, the decoded block, the masks, the
scratch store and the inner digest, which live inside one command. -/

namespace Sys2Proof.Machine

/-- The four fault causes (R221).  An engine fault is not a stop of the model: fault entry is a next state (R226). -/
inductive FaultCause where
  /-- The message store would exceed MSG_CAP: raised by MAPP, PAD, HASH (R222). -/
  | alloc
  /-- The word is not a legal command: raised by any `CmdWrite` in mode READY (R223). -/
  | illegal
  /-- CBLK or ENC with `SV = 0` (R224). -/
  | nostate
  /-- CBLK with no whole block at the cursor (R225). -/
  | noblock
deriving DecidableEq, Repr

/-- Reasons for which the machine stops.  There are none: the transition function is total (R203), a command that cannot
proceed takes the engine's own fault entry, and no command reaches an address that does not exist (R60, R65). -/
inductive Fault
deriving DecidableEq, Repr

/-- Reasons for which the model has no meaning to give. -/
inductive Refusal where
  /-- Raised by an arm of `exec` whose instruction has no meaning yet; safe.  No arm is left so. -/
  | notModelled (mnemonic : String)
  /-- Raised by `performBus` for a bus access that is not one aligned 32-bit register of the engine's window; safe.  What
  happens there is the platform's choice: "A model refuses such an access: it has no meaning" (R66).  No command raises it. -/
  | noSuchPortAccess
deriving DecidableEq, Repr

/-- A byte memory: the bytes that differ from `Config.unlistedByte`, by address. -/
abbrev Memory := List Host.Cell

/-- The state. -/
structure State where
  /-- MSG_CAP, the open parameter (R6): not architectural state but the model's argument, which no step changes. -/
  msgCap : Word
  /-- SV, the state is valid (R21). -/
  sv : Bool
  /-- BLK, the block cursor (R25). -/
  blk : Word
  /-- A, B, C, D (R20). -/
  st : DigestState
  /-- DV, the digest is valid (R23). -/
  dv : Bool
  /-- DIG, sixteen bytes (R23). -/
  dig : Vector Byte 16
  /-- MLEN (R27). -/
  mlen : Word
  /-- MSG, the message store's storage (R27). -/
  msg : Memory
  /-- KLEN, 0 to 64 (R28, R34). -/
  klen : BitVec 7
  /-- KEY, the key store's storage (R28). -/
  key : Memory
  /-- FAULT, the engine is in mode FAULTED (R29, R240). -/
  fault : Bool
  /-- CAUSE, the first fault since reset (R29). -/
  cause : Option FaultCause
  /-- FCMD, the command word that faulted (R29). -/
  fcmd : Word
  /-- MPTR, the read pointer into the message store (R30). -/
  mptr : Word
  /-- The model's own: the transactions the host has yet to perform, the next one first (R26, R205). -/
  pending : List Transaction
  /-- The model's own: the values the host's register reads have returned, oldest first (R205). -/
  reads : List Word
  /-- The model's own: how many free values have been drawn. -/
  free : Nat
deriving DecidableEq, Repr

/-- The state after reset with a given capacity (R42, R251): flags, lengths and records zero, stores empty, mode READY, no
transaction issued.  The storage of A to D and DIG, which the spec leaves unspecified, holds the fillers of `Config`. -/
def State.resetWith (cap : Word) : State where
  msgCap := cap
  sv := false
  blk := 0#32
  st := ⟨Config.resetWord, Config.resetWord, Config.resetWord, Config.resetWord⟩
  dv := false
  dig := Vector.replicate 16 Config.resetByte
  mlen := 0#32
  msg := []
  klen := 0#7
  key := []
  fault := false
  cause := none
  fcmd := 0#32
  mptr := 0#32
  pending := []
  reads := []
  free := 0

/-- The machine right after reset, with the capacity of the spec's examples (assumption 1). -/
def State.reset : State := State.resetWith Config.exampleMsgCap

end Sys2Proof.Machine
end

