-- ==== Sys2Proof/Machine/Flags.lean ====
section
/-! DEFINITION. The flags and the STATUS register: spec/10_state.md rules R24 and R32, spec/60_exceptions.md rule R221.

There are three flags, SV, DV and FAULT, and no condition codes: no arithmetic sets a flag (R24). -/

namespace Sys2Proof.Machine

/-- The cause codes (R221); 5 to 15 are never produced. -/
def causeCode : Option FaultCause → BitVec 4
  | none => 0#4
  | some .alloc => 1#4
  | some .illegal => 2#4
  | some .nostate => 3#4
  | some .noblock => 4#4

/-- STATUS: `SV + 2*DV + 4*FAULT + 16*CAUSE`; every other bit reads 0 (R32). -/
def State.statusWord (s : State) : Word :=
  BitVec.ofNat 32 (s.sv.toNat + 2 * s.dv.toNat + 4 * s.fault.toNat + 16 * (causeCode s.cause).toNat)

end Sys2Proof.Machine
end

