-- ==== Sys2Proof/Machine/Hmac.lean ====
section
/-! DEFINITION. The keyed digest as a total pure function: spec/42_hash_hmac.md rules R184, R185, R186. -/

namespace Sys2Proof.Machine

/-- A mask of R184: 64 bytes, the key's byte or zero, exclusive-or a constant.  No position past 63 is looked at (R186). -/
def keyMask (k : List Byte) (c : Byte) : List Byte := (List.range 64).map fun i => k.getD i 0x00#8 ^^^ c

/-- The inner mask `ipad` (R184). -/
def ipad (k : List Byte) : List Byte := keyMask k 0x36#8

/-- The outer mask `opad` (R184). -/
def opad (k : List Byte) : List Byte := keyMask k 0x5c#8

/-- The inner digest `md5(ipad ‖ m)` (R185). -/
def hmacInner (k m : List Byte) : Vector Byte 16 := md5 (ipad k ++ m)

/-- `hmac_md5(k, m) = md5(opad ‖ inner)` (R185). -/
def hmacMd5 (k m : List Byte) : Vector Byte 16 := md5 (opad k ++ (hmacInner k m).toList)

end Sys2Proof.Machine
end

