-- ==== Sys2Proof/Machine/Operands.lean ====
section
/-! DEFINITION. The byte stores and the operands a command takes from them: spec/20_memory.md rules R60 to R67 and R75.

No command has an address operand (R65).  The implicit operands are the message `MSG[0 .. MLEN)`, the key `KEY[0 .. KLEN)` and
block BLK of the message store (R92). -/

namespace Sys2Proof.Machine

/-- The canonical form: addresses strictly rising, and no entry equal to what an unlisted address reads as. -/
abbrev Memory.wf (m : Memory) : Prop :=
  m.Pairwise (fun x y => x.1 < y.1) ∧ ∀ c ∈ m, c.2 ≠ Config.unlistedByte

/-- Every listed address is below a bound. -/
abbrev Memory.below (m : Memory) (bound : Nat) : Prop := ∀ c ∈ m, c.1 < bound

/-- Read one byte. -/
def Memory.read : Memory → Nat → Byte
  | [], _ => Config.unlistedByte
  | c :: rest, a => if c.1 = a then c.2 else Memory.read rest a

/-- A cell in front of a memory, unless it holds what an unlisted address reads as. -/
def Memory.list (a : Nat) (b : Byte) (m : Memory) : Memory := if b = Config.unlistedByte then m else (a, b) :: m

/-- Write one byte, keeping the canonical form. -/
def Memory.write : Memory → Nat → Byte → Memory
  | [], a, b => Memory.list a b []
  | c :: rest, a, b =>
    if a < c.1 then Memory.list a b (c :: rest)
    else if a = c.1 then Memory.list a b rest
    else c :: Memory.write rest a b

/-- Write a byte sequence at rising addresses: the storage part of `MemWrite(addr, n, v)` (R63). -/
def Memory.writeBytes : Memory → Nat → List Byte → Memory
  | m, _, [] => m
  | m, a, b :: bs => Memory.writeBytes (Memory.write m a b) (a + 1) bs

/-- `MemRead(addr, n)`: the byte sequence at `addr .. addr + n` (R62). -/
def Memory.readBytes (m : Memory) : Nat → Nat → List Byte
  | _, 0 => []
  | a, n + 1 => Memory.read m a :: Memory.readBytes m (a + 1) n

/-- The message `MSG[0 .. MLEN)` (R27). -/
def State.message (s : State) : List Byte := Memory.readBytes s.msg 0 s.mlen.toNat

/-- The key `KEY[0 .. KLEN)` (R28, R75). -/
def State.keyBytes (s : State) : List Byte := Memory.readBytes s.key 0 s.klen.toNat

/-- Where block BLK of the message store begins: `64 * BLK`, without wrap-around (R64, R150). -/
def State.blockAddress (s : State) : Nat := 64 * s.blk.toNat

/-- Block BLK of the message store: `MemRead(64 * BLK, 64)` (R64). -/
def State.block (s : State) : List Byte := Memory.readBytes s.msg s.blockAddress 64

/-- The store holds a whole block at the cursor: `64 * (BLK + 1) ≤ MLEN`, without wrap-around (R64, R225). -/
def State.hasBlock (s : State) : Bool := 64 * (s.blk.toNat + 1) ≤ s.mlen.toNat

/-- An append of `n` bytes fits the message store: `MLEN + n ≤ MSG_CAP`, without wrap-around (R63, R222). -/
def State.fits (s : State) (n : Nat) : Bool := s.mlen.toNat + n ≤ s.msgCap.toNat

end Sys2Proof.Machine
end

