-- ==== Sys2Proof/Machine/Ops.lean ====
section
/-! DEFINITION. The shared operations: the state updates, fault entry (spec/60_exceptions.md rule R226), the return from mode
FAULTED (R229), the mode test (spec/43_system.md rule R203) and the sub-steps the commands are made of. -/

namespace Sys2Proof.Machine

/-- What a step answers. -/
abbrev Result := Host.Outcome State Fault Refusal

/-! Updates of the state. -/

/-- A to D take the initial constants, BLK is 0 and SV is 1 (R142). -/
def State.startState (s : State) : State := { s with st := iv, blk := 0#32, sv := true }

/-- A to D take a new value and BLK advances by 1 (R150). -/
def State.advance (q : DigestState) (s : State) : State := { s with st := q, blk := s.blk + 1#32 }

/-- DIG takes a digest and DV is set; the state is consumed: SV and BLK are 0 (R157, R187). -/
def State.putDigest (v : Vector Byte 16) (s : State) : State := { s with dig := v, dv := true, sv := false, blk := 0#32 }

/-- A to D take free values: what the two passes of HMAC leave in the storage (R187, assumption 4). -/
def State.clobber (s : State) : State :=
  { s with
    st := ⟨Config.freeWord s.free, Config.freeWord (s.free + 1), Config.freeWord (s.free + 2), Config.freeWord (s.free + 3)⟩
    free := s.free + 4 }

/-- Bytes are appended to the message store: `MemWrite(MLEN, n, v)` and `MLEN ← MLEN + n` (R63). -/
def State.appended (bs : List Byte) (s : State) : State :=
  { s with msg := Memory.writeBytes s.msg s.mlen.toNat bs, mlen := s.mlen + BitVec.ofNat 32 bs.length }

/-- The message store is emptied: `MLEN ← 0`; the bytes are not erased (R120). -/
def State.emptyMessage (s : State) : State := { s with mlen := 0#32 }

/-- One byte is appended to the key store: `KEY[KLEN] ← b ; KLEN ← KLEN + 1` (R123). -/
def State.keyAppended (b : Byte) (s : State) : State :=
  { s with key := Memory.write s.key s.klen.toNat b, klen := s.klen + 1#7 }

/-- The key store is emptied: `KLEN ← 0`; the bytes are not erased (R122). -/
def State.emptyKey (s : State) : State := { s with klen := 0#7 }

/-- `MPTR ← v` (R35). -/
def State.setMptr (v : Word) (s : State) : State := { s with mptr := v }

/-- A register read returns a value to the host (R205). -/
def State.pushRead (v : Word) (s : State) : State := { s with reads := s.reads ++ [v] }

/-- The transactions the host has yet to perform. -/
def State.setPending (ts : List Transaction) (s : State) : State := { s with pending := ts }

/-! Taking a fault and leaving mode FAULTED. -/

/-- Fault entry `raise X(w)` (R226): FAULT is 1, CAUSE and FCMD record the fault, DV is 0, and nothing else changes. -/
def State.raise (x : FaultCause) (w : Word) (s : State) : State :=
  { s with fault := true, cause := some x, fcmd := w, dv := false }

/-- Every piece of the engine's state takes its reset value (R42, R200, R204), the only exit from mode FAULTED (R229).  The
capacity is no state, the host's side is not the engine's, and free values already drawn are not drawn again. -/
def State.resetEngine (s : State) : State :=
  { State.resetWith s.msgCap with pending := s.pending, reads := s.reads, free := s.free }

/-! Sub-steps. -/

/-- How a sub-step of a command ends: it is finished, or it has raised a fault, which ends the command (R12, R226). -/
inductive Progress where
  | finished (s : State)
  | raised (s : State)
deriving DecidableEq, Repr

/-- The state a sub-step ends in. -/
def Progress.state : Progress → State
  | .finished s => s
  | .raised s => s

/-- The next sub-step; "nothing after a `raise` in the same command is executed" (R12). -/
def Progress.andThen (p : Progress) (f : State → Progress) : Progress :=
  match p with
  | .finished s => f s
  | .raised s => .raised s

/-- The mode test (R203, R240): in mode FAULTED a command is ignored, with no state change at all. -/
def whenReady (s : State) (r : State) : Result := if s.fault then .next s else .next r

/-- Append bytes for command word `w`, or raise ALLOC before the first byte is written (R63, R222). -/
def appendOrRaise (w : Word) (bs : List Byte) (s : State) : Progress :=
  if s.fits bs.length then .finished (s.appended bs) else .raised (s.raise .alloc w)

/-- PAD's sub-step: append the padding tail of the present length (R152). -/
def padStep (w : Word) (s : State) : Progress := appendOrRaise w (padTail s.mlen.toNat) s

/-- CBLK's sub-step (R150): NOSTATE is tested before NOBLOCK (R227). -/
def cblkStep (w : Word) (s : State) : Progress :=
  if !s.sv then .raised (s.raise .nostate w)
  else if !s.hasBlock then .raised (s.raise .noblock w)
  else .finished (s.advance (md5Compress s.st s.block))

/-- CBLK's sub-step repeated `n` times (R181). -/
def cblkSteps (w : Word) : Nat → State → Progress
  | 0, s => .finished s
  | n + 1, s => (cblkStep w s).andThen (cblkSteps w n)

/-- ENC's sub-step (R157). -/
def encStep (w : Word) (s : State) : Progress :=
  if !s.sv then .raised (s.raise .nostate w) else .finished (s.putDigest (md5Encode s.st))

/-- The number of blocks of the message store, `MLEN / 64` (R181). -/
def State.blockCount (s : State) : Nat := s.mlen.toNat / 64

/-- HASH: INIT, PAD, CBLK for each block of the padded store, ENC, stopping at the first fault (R181). -/
def hashSteps (w : Word) (s : State) : Progress :=
  (padStep w s.startState).andThen fun p => (cblkSteps w p.blockCount p).andThen (encStep w)

/-- HMAC: the keyed digest of the message under the key; the state is clobbered (R187). -/
def hmacState (s : State) : State := s.clobber.putDigest (hmacMd5 s.keyBytes s.message)

end Sys2Proof.Machine
end

