-- ==== Sys2Proof/Machine/CompositeCommands.lean ====
section
/-! DEFINITION. The composite commands HASH and HMAC: spec/42_hash_hmac.md. -/

namespace Sys2Proof.Machine

/-- HASH (R181); a fault inside it records the HASH command word (R33). -/
def execHash (s : State) : Result := whenReady s (hashSteps (encode .hash) s).state

/-- HMAC (R187). -/
def execHmac (s : State) : Result := whenReady s (hmacState s)

end Sys2Proof.Machine
end

