-- ==== Sys2Proof/Machine/Md5Commands.lean ====
section
/-! DEFINITION. The MD5 primitives INIT, PAD, CBLK, ENC: spec/41_md5_primitives.md. -/

namespace Sys2Proof.Machine

/-- INIT (R142). -/
def execInit (s : State) : Result := whenReady s s.startState

/-- PAD (R152). -/
def execPad (s : State) : Result := whenReady s (padStep (encode .pad) s).state

/-- CBLK (R150). -/
def execCblk (s : State) : Result := whenReady s (cblkStep (encode .cblk) s).state

/-- ENC (R157). -/
def execEnc (s : State) : Result := whenReady s (encStep (encode .enc) s).state

end Sys2Proof.Machine
end

