-- ==== Sys2Proof/Machine/StoreCommands.lean ====
section
/-! DEFINITION. The store commands MCLR, MAPP, KCLR, KAPP: spec/40_store_commands.md. -/

namespace Sys2Proof.Machine

/-- MCLR (R120). -/
def execMclr (s : State) : Result := whenReady s s.emptyMessage

/-- MAPP imm8 (R121). -/
def execMapp (imm8 : Byte) (s : State) : Result :=
  whenReady s (appendOrRaise (encode (.mapp imm8)) [imm8] s).state

/-- KCLR (R122). -/
def execKclr (s : State) : Result := whenReady s s.emptyKey

/-- KAPP imm8 (R123): a 65th and later key byte is dropped, without a fault or a flag. -/
def execKapp (imm8 : Byte) (s : State) : Result :=
  whenReady s (if s.klen.toNat < 64 then s.keyAppended imm8 else s)

end Sys2Proof.Machine
end

