-- ==== Sys2Proof/Machine/SystemCommands.lean ====
section
/-! DEFINITION. The system command RST: spec/43_system.md rule R200. -/

namespace Sys2Proof.Machine

/-- RST (R200): the only command executed in mode FAULTED; its effect is that of the reset input. -/
def execRst (s : State) : Result := .next s.resetEngine

end Sys2Proof.Machine
end

