-- ==== Sys2Proof/Machine/Dispatch.lean ====
section
/-! DEFINITION. One arm per command: what `CmdWrite` of the command's word does, in either mode (spec/43_system.md R203). -/

namespace Sys2Proof.Machine

def exec (i : Instr) (s : State) : Host.Outcome State Fault Refusal :=
  match i with
  | .rst => Sys2Proof.Machine.execRst s
  | .mclr => Sys2Proof.Machine.execMclr s
  | .mapp imm8 => Sys2Proof.Machine.execMapp imm8 s
  | .kclr => Sys2Proof.Machine.execKclr s
  | .kapp imm8 => Sys2Proof.Machine.execKapp imm8 s
  | .init => Sys2Proof.Machine.execInit s
  | .pad => Sys2Proof.Machine.execPad s
  | .cblk => Sys2Proof.Machine.execCblk s
  | .enc => Sys2Proof.Machine.execEnc s
  | .hash => Sys2Proof.Machine.execHash s
  | .hmac => Sys2Proof.Machine.execHmac s

end Sys2Proof.Machine
end

