-- ==== Sys2Proof/Machine/Port.lean ====
section
/-! DEFINITION. The host's side: register reads and writes, command writes, reset, and runs (spec/43_system.md rules R201 to
R205, spec/10_state.md rules R31 to R39), and the bridge from a byte-addressed bus (spec/20_memory.md rule R66). -/

namespace Sys2Proof.Machine

/-- A value that reads as zero unless its validity flag is set (R36, R37). -/
def gated (valid : Bool) (v : Word) : Word := if valid then v else 0#32

/-- Digest register `k`: `LE32dec` of digest bytes `4k` to `4k + 3`, or 0 while `DV = 0` (R37). -/
def State.digestWord (s : State) (k : Fin 4) : Word :=
  gated s.dv (le32dec (s.dig.get ⟨4 * k.val, by omega⟩) (s.dig.get ⟨4 * k.val + 1, by omega⟩)
    (s.dig.get ⟨4 * k.val + 2, by omega⟩) (s.dig.get ⟨4 * k.val + 3, by omega⟩))

/-- MBYTE: the byte of the message store at MPTR, or 0 at and above MLEN (R35). -/
def State.mbyte (s : State) : Word := if s.mptr < s.mlen then zext32 (Memory.read s.msg s.mptr.toNat) else 0#32

/-- What a named register reads as (R31 to R38). -/
def State.readReg (s : State) : PortReg → Word
  | .cmd => 0#32
  | .status => s.statusWord
  | .fcmd => s.fcmd
  | .mlen => s.mlen
  | .klen => s.klen.zeroExtend 32
  | .blk => gated s.sv s.blk
  | .mptr => s.mptr
  | .mbyte => s.mbyte
  | .sta => gated s.sv (s.st.x 0)
  | .stb => gated s.sv (s.st.x 1)
  | .stc => gated s.sv (s.st.x 2)
  | .std => gated s.sv (s.st.x 3)
  | .dig0 => s.digestWord 0
  | .dig1 => s.digestWord 1
  | .dig2 => s.digestWord 2
  | .dig3 => s.digestWord 3
  | .mcap => s.msgCap

/-- `RegRead(n)` (R201): an unmapped register reads 0 (R39). -/
def regRead (n : Fin 64) (s : State) : Word :=
  match portRegOf n with
  | some r => s.readReg r
  | none => 0#32

/-- `CmdWrite(w)`, the dispatch of every command (R203): an illegal word raises ILLEGAL in mode READY and is ignored in mode
FAULTED; a legal one is executed, each command but RST being ignored in mode FAULTED. -/
def cmdWrite (w : Word) (s : State) : Result :=
  match decode w with
  | .ok i => exec i s
  | .error _ => whenReady s (s.raise .illegal w)

/-- `RegWrite(n, v)` (R202): CMD and MPTR are written, in either mode; every other write is ignored. -/
def regWrite (n : Fin 64) (v : Word) (s : State) : Result :=
  match portRegOf n with
  | some .cmd => cmdWrite v s
  | some .mptr => .next (s.setMptr v)
  | _ => .next s

/-- One transaction of the host (R5). -/
def perform (t : Transaction) (s : State) : Result :=
  match t with
  | .cmdWrite w => cmdWrite w s
  | .regWrite n v => regWrite n v s
  | .regRead n => .next (s.pushRead (regRead n s))
  | .reset => .next s.resetEngine

/-- A run (R205): the fold of the transition functions over a list of transactions. -/
def runTransactions : List Transaction → State → Result
  | [], s => .next s
  | t :: ts, s =>
    match perform t s with
    | .next s' => runTransactions ts s'
    | .fault r => .fault r
    | .refused r => .refused r

/-- The register a bus access names: only an aligned 32-bit access at offset `4n`, `n` at most 63 (R31, R66). -/
def busRegister (offset width : Nat) : Option (Fin 64) :=
  if h : width = 4 ∧ offset % 4 = 0 ∧ offset / 4 < 64 then some ⟨offset / 4, h.2.2⟩ else none

/-- The bridge of R66: an access becomes a transaction, or has no meaning. -/
def bridge : BusAccess → Option Transaction
  | .read offset width => (busRegister offset width).map .regRead
  | .write offset width v => (busRegister offset width).map (.regWrite · v)

/-- A bus access, performed through the bridge or refused (R66). -/
def performBus (b : BusAccess) (s : State) : Result :=
  match bridge b with
  | some t => perform t s
  | none => .refused .noSuchPortAccess

end Sys2Proof.Machine
end

