-- ==== Sys2Proof/Machine/Step.lean ====
section
/-! DEFINITION. One step: the host's next transaction takes effect, completely (spec/20_memory.md rule R71).

The engine has no program counter and fetches nothing (spec/10_state.md rule R26): the host holds the command sequence, here
the list `pending`.  With no transaction to perform the engine does nothing on its own (R207, R251). -/

namespace Sys2Proof.Machine

/-- One step. -/
def step (s : State) : Host.Outcome State Fault Refusal :=
  match s.pending with
  | [] => .next s
  | t :: rest => perform t (s.setPending rest)

/-- The host is about to write a command word: the very next step executes it. -/
def State.withFetchWord (s : State) (nbits w : Nat) : State :=
  s.setPending (.cmdWrite (BitVec.ofNat 32 (w % 2 ^ nbits)) :: s.pending)

end Sys2Proof.Machine
end

