-- ==== Sys2Proof/Machine/Assembler.lean ====
section
/-! DEFINITION. The assembler: program lines to transactions, and the text of a line (spec/30_encoding.md rules R98, R99).

The text is a list of characters.  Where R98 does not say how a line is cut into words, assumption 8 does. -/

namespace Sys2Proof.Machine

/-! Lines to transactions. -/

/-- One command as a transaction. -/
def commandTx (i : Instr) : Transaction := .cmdWrite (encode i)

/-- `MAPP` of a byte in range (R98). -/
def mappTx (b : Nat) : Transaction := commandTx (.mapp (BitVec.ofNat 8 b))

/-- `KAPP` of a byte in range (R98). -/
def kappTx (b : Nat) : Transaction := commandTx (.kapp (BitVec.ofNat 8 b))

/-- The register number an operand names (R98). -/
def RegArg.toNumber : RegArg → Fin 64
  | .name r => r.number
  | .number n => Fin.ofNat 64 n

/-- `MSTR`: one MAPP per character, each as its ASCII byte (R99). -/
def mstrTx (t : List Char) : List Transaction := t.map fun c => mappTx c.toNat

/-- `KSTR`: one KAPP per character (R99). -/
def kstrTx (t : List Char) : List Transaction := t.map fun c => kappTx c.toNat

/-- `MSG`: MCLR, then the text (R99). -/
def msgTx (t : List Char) : List Transaction := commandTx .mclr :: mstrTx t

/-- `RDDIG`: the four digest registers in order (R99). -/
def rddigTx : List Transaction :=
  [.regRead PortReg.dig0.number, .regRead PortReg.dig1.number, .regRead PortReg.dig2.number, .regRead PortReg.dig3.number]

/-- The transactions of a well-formed line (R98, R99). -/
def expandLine : AsmLine → List Transaction
  | .command i => [commandTx i]
  | .mapp b => [mappTx b]
  | .kapp b => [kappTx b]
  | .cmd w => [.cmdWrite (BitVec.ofNat 32 w)]
  | .rd r => [.regRead (RegArg.toNumber r)]
  | .wr r w => [.regWrite (RegArg.toNumber r) (BitVec.ofNat 32 w)]
  | .reset => [.reset]
  | .mstr t => mstrTx t
  | .mbytes bs => bs.map mappTx
  | .mfill b n => List.replicate n (mappTx b)
  | .kstr t => kstrTx t
  | .kbytes bs => bs.map kappTx
  | .kfill b n => List.replicate n (kappTx b)
  | .msg t => msgTx t
  | .key t => commandTx .kclr :: kstrTx t
  | .rddig => rddigTx
  | .md5 t => msgTx t ++ commandTx .hash :: rddigTx

/-- A program's transactions, or an assembler error where a line is not well formed (R98). -/
def assemble (ls : List AsmLine) : Option (List Transaction) :=
  if ls.all AsmLine.wellFormed then some (ls.flatMap expandLine) else none

/-! Text to lines. -/

/-- A blank between words. -/
def isBlank (c : Char) : Bool := c == ' ' || c == '\t'

/-- Blanks at both ends removed. -/
def trimBlanks (t : List Char) : List Char := ((t.dropWhile isBlank).reverse.dropWhile isBlank).reverse

/-- The text before the comment: "a `#` starts a comment to the end of the line" (R98); inside quotes it is data. -/
def dropComment : Bool → List Char → List Char
  | _, [] => []
  | false, '\'' :: c :: '\'' :: rest => '\'' :: c :: '\'' :: dropComment false rest
  | false, '#' :: _ => []
  | q, '"' :: rest => '"' :: dropComment (!q) rest
  | q, c :: rest => c :: dropComment q rest

/-- The text before `=>`: a listing may give the value the rules predict on an RD line (R98).  That only an RD line may carry
`=>` outside a comment, and that what follows it is not read, is the model's choice: assumption 8, DESIGN CHOICE. -/
def dropPrediction : List Char → List Char
  | [] => []
  | '=' :: '>' :: _ => []
  | c :: rest => c :: dropPrediction rest

/-- Text in front of the first of some pieces. -/
def extendFirst (t : List Char) : List (List Char) → List (List Char)
  | [] => [t]
  | p :: ps => (t ++ p) :: ps

/-- The pieces between commas.  The character of a quoted character is data, be it a comma: `','` is one byte operand (R98). -/
def splitCommas : List Char → List (List Char)
  | [] => [[]]
  | '\'' :: c :: '\'' :: rest => extendFirst ['\'', c, '\''] (splitCommas rest)
  | ',' :: rest => [] :: splitCommas rest
  | c :: rest => extendFirst [c] (splitCommas rest)

/-- The value of a digit in a base of at most 16. -/
def digitValue (base : Nat) (c : Char) : Option Nat :=
  let v :=
    if '0' ≤ c ∧ c ≤ '9' then c.toNat - '0'.toNat
    else if 'a' ≤ c ∧ c ≤ 'f' then c.toNat - 'a'.toNat + 10
    else if 'A' ≤ c ∧ c ≤ 'F' then c.toNat - 'A'.toNat + 10
    else 16
  if v < base then some v else none

/-- Digits, most significant first. -/
def digitsValue (base : Nat) : Nat → List Char → Option Nat
  | acc, [] => some acc
  | acc, c :: rest => (digitValue base c).bind fun v => digitsValue base (base * acc + v) rest

/-- A number: `0x` hexadecimal or decimal (R98). -/
def parseNumber : List Char → Option Nat
  | [] => none
  | ['0', 'x'] => none
  | '0' :: 'x' :: ds => digitsValue 16 0 ds
  | ds => digitsValue 10 0 ds

/-- A byte operand: a number or a quoted ASCII character (R98). -/
def parseByte : List Char → Option Nat
  | ['\'', c, '\''] => if c.toNat < 128 then some c.toNat else none
  | t => parseNumber t

/-- A list of byte operands. -/
def parseBytes (t : List Char) : Option (List Nat) := (splitCommas t).mapM fun p => parseByte (trimBlanks p)

/-- A string between double quotes: no escapes, and no quote inside (R99). -/
def parseText : List Char → Option (List Char)
  | '"' :: rest =>
    match rest.reverse with
    | '"' :: body => if body.contains '"' then none else some body.reverse
    | _ => none
  | _ => none

/-- The names of the registers (R31). -/
def regNames : List (List Char × PortReg) :=
  [(['C', 'M', 'D'], .cmd), (['S', 'T', 'A', 'T', 'U', 'S'], .status), (['F', 'C', 'M', 'D'], .fcmd),
   (['M', 'L', 'E', 'N'], .mlen), (['K', 'L', 'E', 'N'], .klen), (['B', 'L', 'K'], .blk), (['M', 'P', 'T', 'R'], .mptr),
   (['M', 'B', 'Y', 'T', 'E'], .mbyte), (['S', 'T', 'A'], .sta), (['S', 'T', 'B'], .stb), (['S', 'T', 'C'], .stc),
   (['S', 'T', 'D'], .std), (['D', 'I', 'G', '0'], .dig0), (['D', 'I', 'G', '1'], .dig1), (['D', 'I', 'G', '2'], .dig2),
   (['D', 'I', 'G', '3'], .dig3), (['M', 'C', 'A', 'P'], .mcap)]

/-- A register operand: a name of R31 or a number (R98). -/
def parseReg (t : List Char) : Option RegArg :=
  match regNames.lookup t with
  | some r => some (.name r)
  | none => (parseNumber t).map .number

/-- The lines without operands, by their word (R98, R99). -/
def bareLines : List (List Char × AsmLine) :=
  [(['R', 'S', 'T'], .command .rst), (['M', 'C', 'L', 'R'], .command .mclr), (['K', 'C', 'L', 'R'], .command .kclr),
   (['I', 'N', 'I', 'T'], .command .init), (['P', 'A', 'D'], .command .pad), (['C', 'B', 'L', 'K'], .command .cblk),
   (['E', 'N', 'C'], .command .enc), (['H', 'A', 'S', 'H'], .command .hash), (['H', 'M', 'A', 'C'], .command .hmac),
   (['R', 'E', 'S', 'E', 'T'], .reset), (['R', 'D', 'D', 'I', 'G'], .rddig)]

/-- What a line with operands makes of its operand text (R98, R99).  A word, a count or a register number is written as a number
of R98 is, and a quoted character stands for a byte only: assumption 8, DESIGN CHOICE. -/
def operandLines : List (List Char × (List Char → Option AsmLine)) :=
  [(['M', 'A', 'P', 'P'], fun t => (parseByte t).map .mapp),
   (['K', 'A', 'P', 'P'], fun t => (parseByte t).map .kapp),
   (['C', 'M', 'D'], fun t => (parseNumber t).map .cmd),
   (['R', 'D'], fun t => (parseReg (trimBlanks (dropPrediction t))).map .rd),
   (['W', 'R'], fun t =>
      match splitCommas t with
      | [r, v] => (parseReg (trimBlanks r)).bind fun r => (parseNumber (trimBlanks v)).map (.wr r)
      | _ => none),
   (['M', 'S', 'T', 'R'], fun t => (parseText t).map .mstr),
   (['M', 'B', 'Y', 'T', 'E', 'S'], fun t => (parseBytes t).map .mbytes),
   (['M', 'F', 'I', 'L', 'L'], fun t =>
      match splitCommas t with
      | [b, n] => (parseByte (trimBlanks b)).bind fun b => (parseNumber (trimBlanks n)).map (.mfill b)
      | _ => none),
   (['K', 'S', 'T', 'R'], fun t => (parseText t).map .kstr),
   (['K', 'B', 'Y', 'T', 'E', 'S'], fun t => (parseBytes t).map .kbytes),
   (['K', 'F', 'I', 'L', 'L'], fun t =>
      match splitCommas t with
      | [b, n] => (parseByte (trimBlanks b)).bind fun b => (parseNumber (trimBlanks n)).map (.kfill b)
      | _ => none),
   (['M', 'S', 'G'], fun t => (parseText t).map .msg),
   (['K', 'E', 'Y'], fun t => (parseText t).map .key),
   (['M', 'D', '5'], fun t => (parseText t).map .md5)]

/-- One line of text: no line where it is blank or only a comment, `none` where it is an assembler error (R98).

How the text is cut is the model's choice where R98 and R99 are silent: assumption 8, DESIGN CHOICE.  So is this: R99 says that
a listing writes the result of RDDIG as 16 bytes and does not say where; outside a comment, a result after RDDIG or MD5 (with
`=>` or without) is an assembler error here, and after `#` it is a comment. -/
def parseLine (text : List Char) : Option (List AsmLine) :=
  let t := trimBlanks (dropComment false text)
  let word := t.takeWhile fun c => !isBlank c
  let operands := trimBlanks (t.dropWhile fun c => !isBlank c)
  if word = [] then some []
  else if operands = [] then (bareLines.lookup word).map fun l => [l]
  else ((operandLines.lookup word).bind fun f => f operands).map fun l => [l]

/-- A program's text, one list of characters a line, as transactions (R98, R99). -/
def assembleText (lines : List (List Char)) : Option (List Transaction) :=
  (lines.mapM parseLine).bind fun ls => assemble ls.flatten

end Sys2Proof.Machine
end

