-- ==== Sys2Proof/Safety.lean ====
section
/-! DEFINITION. What counts as a safe run: the invariant of every reachable state (spec/10_state.md rule R43), the end of a run
(spec/43_system.md rule R205), and which states no transaction can tell apart (R42). -/

namespace Sys2Proof.Machine

/-- The invariant of R43, with what R25, R27, R28, R29 and R33 add and with the canonical form of the stores. -/
structure State.Inv (s : State) : Prop where
  /-- R6. -/
  capacity : Config.LegalCapacity s.msgCap
  /-- R43: `MLEN ≤ MSG_CAP`. -/
  mlen_le : s.mlen.toNat ≤ s.msgCap.toNat
  /-- R43: `KLEN ≤ 64`. -/
  klen_le : s.klen.toNat ≤ 64
  /-- R43: `CAUSE = 0` if and only if `FAULT = 0`. -/
  cause_iff : s.cause = none ↔ s.fault = false
  /-- R43: `FAULT = 1` implies `DV = 0`. -/
  dv_clear : s.fault = true → s.dv = false
  /-- R43: `BLK ≤ MSG_CAP / 64`. -/
  blk_le : s.blk.toNat ≤ s.msgCap.toNat / 64
  /-- R25: BLK is 0 while the state is not valid. -/
  blk_zero : s.sv = false → s.blk = 0#32
  /-- R29, R33: FCMD is 0 while no fault is recorded. -/
  fcmd_zero : s.fault = false → s.fcmd = 0#32
  /-- The message store is in canonical form. -/
  msg_wf : Memory.wf s.msg
  /-- R27: the message store has MSG_CAP bytes. -/
  msg_below : Memory.below s.msg s.msgCap.toNat
  /-- The key store is in canonical form. -/
  key_wf : Memory.wf s.key
  /-- R28: the key store has 64 bytes. -/
  key_below : Memory.below s.key 64

/-- The transaction writes a command word: through CMD by either name (R38). -/
def Transaction.writesCommand (tr : Transaction) (w : Word) : Prop := tr = .cmdWrite w ∨ tr = .regWrite 0 w

/-- The transaction is one of the two resets (R250): the reset input or a write of the RST word. -/
def Transaction.resets (tr : Transaction) : Prop := tr = .reset ∨ Transaction.writesCommand tr 0x00000001#32

/-- The transactions that load a byte sequence into the message store: one MAPP per byte, first byte first (R207, R252). -/
def loadMessage (bs : List Byte) : List Transaction := bs.map fun b => .cmdWrite (encode (.mapp b))

/-- The transactions that load a key: one KAPP per byte, first byte first (R207, R252). -/
def loadKey (bs : List Byte) : List Transaction := bs.map fun b => .cmdWrite (encode (.kapp b))

/-- A run ends well when `FAULT = 0` at its end (R205). -/
def State.endsWell (s : State) : Prop := s.fault = false

/-- The digest registers hold a digest: no fault, and DV is 1 (R205, R207). -/
def State.digestUsable (s : State) : Prop := s.fault = false ∧ s.dv = true

/-- Two states that agree on everything a transaction can see now or bring to light later: all but the storage the spec calls
"unspecified; unobservable" (R42) and the model's own count of free values. -/
structure State.SameToHost (s t : State) : Prop where
  msgCap : s.msgCap = t.msgCap
  sv : s.sv = t.sv
  st : s.sv = true → s.st = t.st
  blk : s.sv = true → s.blk = t.blk
  dv : s.dv = t.dv
  dig : s.dv = true → s.dig = t.dig
  mlen : s.mlen = t.mlen
  message : s.message = t.message
  klen : s.klen = t.klen
  keyBytes : s.keyBytes = t.keyBytes
  fault : s.fault = t.fault
  cause : s.cause = t.cause
  fcmd : s.fcmd = t.fcmd
  mptr : s.mptr = t.mptr
  pending : s.pending = t.pending
  reads : s.reads = t.reads

end Sys2Proof.Machine
end

