-- ==== Sys2Proof/Certificates/Slice0/Obligations.lean ====
section
/-! DEFINITION. The statements for the provers.  Each docstring names the rules of spec/ it formalises. -/

open Sys2Proof Sys2Proof.Machine

/-! Encoding. -/

/-- R96: the encodings of the eleven commands, decode and encode agree both ways, and every other word is illegal. -/
def Obligations.DecodeAndEncodeAgree : Prop :=
  (∀ i, decode (encode i) = .ok i) ∧
  (∀ w i, decode w = .ok i → encode i = w) ∧
  (∀ w, (∀ i, encode i ≠ w) → ∃ r, decode w = .error r) ∧
  (∀ b : Byte, encode (.mapp b) = 0x11#32 + 256#32 * b.zeroExtend 32) ∧
  (∀ b : Byte, encode (.kapp b) = 0x19#32 + 256#32 * b.zeroExtend 32) ∧
  encode .rst = 0x01#32 ∧ encode .mclr = 0x10#32 ∧ encode .kclr = 0x18#32 ∧ encode .init = 0x20#32 ∧
  encode .pad = 0x21#32 ∧ encode .cblk = 0x22#32 ∧ encode .enc = 0x23#32 ∧ encode .hash = 0x30#32 ∧
  encode .hmac = 0x31#32

/-- R94: which words are legal, that there are 521 of them, and that in mode READY every other word raises ILLEGAL and has no
other effect. -/
def Obligations.LegalWordsAreExactlyThese521 : Prop :=
  (∀ w : Word, (∃ i, decode w = .ok i) ↔
    w.extractLsb' 16 16 = 0#16 ∧
    (w.extractLsb' 0 8).toNat ∈ [0x01, 0x10, 0x11, 0x18, 0x19, 0x20, 0x21, 0x22, 0x23, 0x30, 0x31] ∧
    ((w.extractLsb' 0 8).toNat ∉ [0x11, 0x19] → w.extractLsb' 8 8 = 0#8)) ∧
  (∃ l : List Word, l.Nodup ∧ l.length = 521 ∧ ∀ w, w ∈ l ↔ ∃ i, decode w = .ok i) ∧
  (∀ (s : State) (w : Word), s.fault = false → (∀ i, decode w ≠ .ok i) →
    perform (.cmdWrite w) s = .next { s with fault := true, cause := some .illegal, fcmd := w, dv := false }) ∧
  (∀ i, decode 0x00000000#32 ≠ .ok i) ∧ (∀ i, decode 0xFFFFFFFF#32 ≠ .ok i) ∧ (∀ i, decode 0x00000120#32 ≠ .ok i)

/-- Words written out from the encodings of R93 and the table of spec/95_test_vectors.md section 3.6. -/
def Obligations.WrittenWordsDecode : Prop :=
  decode 0x00000001#32 = .ok .rst ∧ decode 0x00000010#32 = .ok .mclr ∧ decode 0x00000011#32 = .ok (.mapp 0x00#8) ∧
  decode 0x00006111#32 = .ok (.mapp 0x61#8) ∧ decode 0x0000ff11#32 = .ok (.mapp 0xff#8) ∧
  decode 0x00000018#32 = .ok .kclr ∧ decode 0x00006b19#32 = .ok (.kapp 0x6b#8) ∧ decode 0x00000020#32 = .ok .init ∧
  decode 0x00000021#32 = .ok .pad ∧ decode 0x00000022#32 = .ok .cblk ∧ decode 0x00000023#32 = .ok .enc ∧
  decode 0x00000030#32 = .ok .hash ∧ decode 0x00000031#32 = .ok .hmac ∧
  decode 0x00000000#32 = .error .unknownOpcode ∧ decode 0x00000024#32 = .error .unknownOpcode ∧
  decode 0x00000101#32 = .error .immediateNotZero ∧ decode 0x0000ff30#32 = .error .immediateNotZero ∧
  decode 0x00010030#32 = .error .reservedBits ∧ decode 0x00016111#32 = .error .reservedBits ∧
  decode 0x00001100#32 = .error .unknownOpcode

/-- Every word fits at most one row of the opcode table, the row of the command it decodes to (R91). -/
def Obligations.OpcodeTableRowsDoNotOverlap : Prop :=
  (∀ w i, decode w = .ok i → (opcodeTable.filter (·.fits w)).map (·.mnemonic) = [mnemonic i]) ∧
  (∀ w r, decode w = .error r → opcodeTable.filter (·.fits w) = [])

/-- R223: ILLEGAL is raised in mode READY by a reserved bit, an unknown opcode or a non-zero `imm8` in format N. -/
def Obligations.IllegalWordsRaiseIllegal : Prop :=
  ∀ (s : State) (w : Word), s.fault = false →
    (w.extractLsb' 16 16 ≠ 0#16 ∨ formatOfOpcode (w.extractLsb' 0 8).toNat = none ∨
      (formatOfOpcode (w.extractLsb' 0 8).toNat = some .N ∧ w.extractLsb' 8 8 ≠ 0#8)) →
    (∃ r, decode w = .error r) ∧
    perform (.cmdWrite w) s = .next { s with fault := true, cause := some .illegal, fcmd := w, dv := false }

/-! The step and the port. -/

/-- The next transaction takes effect: a command word's step is `exec` of the command it decodes to, in the state without that
transaction; an idle machine does nothing (R71, R203, R207).  That the transactions still to come stand in a list of the state,
and that `exec` is the command's effect in either mode, are the model's choices (assumptions 5 and 9). -/
def Obligations.StepPerformsTheNextTransaction : Prop :=
  (∀ (s : State) (w : Word) (i : Instr) (rest : List Transaction), s.pending = .cmdWrite w :: rest → decode w = .ok i →
    step s = exec i { s with pending := rest }) ∧
  (∀ (s : State) (t : Transaction) (rest : List Transaction), s.pending = t :: rest →
    step s = perform t { s with pending := rest }) ∧
  (∀ s : State, s.pending = [] → step s = .next s)

/-- R203: the dispatch, with exactly one next state for every state and word. -/
def Obligations.CommandWriteDispatches : Prop :=
  ∀ (s : State) (w : Word),
    (s.fault = true → decode w = .ok .rst → perform (.cmdWrite w) s = exec .rst s) ∧
    (s.fault = true → decode w ≠ .ok .rst → perform (.cmdWrite w) s = .next s) ∧
    (s.fault = false → (∀ i, decode w ≠ .ok i) →
      perform (.cmdWrite w) s = .next { s with fault := true, cause := some .illegal, fcmd := w, dv := false }) ∧
    (∀ i, s.fault = false → decode w = .ok i → perform (.cmdWrite w) s = exec i s) ∧
    (∃ t, perform (.cmdWrite w) s = .next t ∧ ∀ u, perform (.cmdWrite w) s = .next u → u = t)

/-- Every step from every state answers a next state: no command hangs, stops the machine or is refused (R203, R263). -/
def Obligations.EveryStepAnswersANextState : Prop :=
  ∀ s : State, ∃ t, step s = .next t

/-- What every register reads as, and that a read changes nothing, in either mode (R201).  The last clause is about the model's
own lists of pending transactions and of values read, the model's choice (assumption 5). -/
def Obligations.RegisterReadsFollowTheMap : Prop :=
  ∀ s : State,
    regRead 0 s = 0#32 ∧
    regRead 1 s = BitVec.ofNat 32 (s.sv.toNat + 2 * s.dv.toNat + 4 * s.fault.toNat + 16 * (causeCode s.cause).toNat) ∧
    regRead 2 s = s.fcmd ∧
    (s.Inv → s.fault = false → regRead 2 s = 0#32) ∧
    regRead 3 s = s.mlen ∧
    regRead 4 s = s.klen.zeroExtend 32 ∧
    regRead 5 s = (if s.sv = true then s.blk else 0#32) ∧
    regRead 6 s = s.mptr ∧
    regRead 7 s = (if s.mptr.toNat < s.mlen.toNat then (Memory.read s.msg s.mptr.toNat).zeroExtend 32 else 0#32) ∧
    (∀ j : Fin 4, regRead (Fin.ofNat 64 (8 + j.val)) s = if s.sv = true then s.st.x j else 0#32) ∧
    (∀ k : Fin 4, regRead (Fin.ofNat 64 (12 + k.val)) s =
      if s.dv = true then
        le32dec (s.dig.get (Fin.ofNat 16 (4 * k.val))) (s.dig.get (Fin.ofNat 16 (4 * k.val + 1)))
          (s.dig.get (Fin.ofNat 16 (4 * k.val + 2))) (s.dig.get (Fin.ofNat 16 (4 * k.val + 3)))
      else 0#32) ∧
    regRead 16 s = s.msgCap ∧
    (∀ n : Fin 64, 17 ≤ n.val → regRead n s = 0#32) ∧
    (s.Inv → s.fault = true → ∀ k : Fin 4, regRead (Fin.ofNat 64 (12 + k.val)) s = 0#32) ∧
    (∀ (n : Fin 64) (rest : List Transaction), s.pending = .regRead n :: rest →
      step s = .next { s with pending := rest, reads := s.reads ++ [regRead n s] })

/-- R32: the fields of STATUS. -/
def Obligations.StatusFieldsAreWhereTheTableSays : Prop :=
  ∀ s : State,
    (regRead 1 s).getLsbD 0 = s.sv ∧
    (regRead 1 s).getLsbD 1 = s.dv ∧
    (regRead 1 s).getLsbD 2 = s.fault ∧
    (regRead 1 s).getLsbD 3 = false ∧
    (regRead 1 s).extractLsb' 4 4 = causeCode s.cause ∧
    (regRead 1 s).extractLsb' 8 24 = 0#24 ∧
    causeCode none = 0#4 ∧ causeCode (some .alloc) = 1#4 ∧ causeCode (some .illegal) = 2#4 ∧
    causeCode (some .nostate) = 3#4 ∧ causeCode (some .noblock) = 4#4 ∧
    (∀ c : Option FaultCause, (causeCode c).toNat < 5) ∧
    (s.Inv → s.fault = false → (regRead 1 s).extractLsb' 4 4 = 0#4) ∧
    (regRead 1 s).toNat = s.sv.toNat + 2 * s.dv.toNat + 4 * s.fault.toNat + 16 * (causeCode s.cause).toNat ∧
    (∀ cap : Word, regRead 1 (State.resetWith cap) = 0#32)

/-- R202: a write of CMD is the command write, a write of MPTR sets it, every other write is ignored, in either mode. -/
def Obligations.RegisterWritesReachOnlyCmdAndMptr : Prop :=
  ∀ (s : State) (n : Fin 64) (v : Word),
    (n = 0 → perform (.regWrite n v) s = perform (.cmdWrite v) s) ∧
    (n = 6 → perform (.regWrite n v) s = .next { s with mptr := v }) ∧
    (n ≠ 0 → n ≠ 6 → perform (.regWrite n v) s = .next s)

/-- An aligned 32-bit bus access at offset `4n` is the register access of number `n`; every other access is refused (R66; that
offsets of 256 and above are among them is read from R39, assumption 11). -/
def Obligations.BusAccessesAreBridgedOrRefused : Prop :=
  ∀ (s : State) (v : Word) (offset width : Nat),
    (∀ n : Fin 64, offset = 4 * n.val → width = 4 →
      performBus (.read offset width) s = perform (.regRead n) s ∧
      performBus (.write offset width v) s = perform (.regWrite n v) s) ∧
    ((width ≠ 4 ∨ offset % 4 ≠ 0 ∨ 256 ≤ offset) →
      performBus (.read offset width) s = .refused .noSuchPortAccess ∧
      performBus (.write offset width v) s = .refused .noSuchPortAccess)

/-- A run of the machine over its pending transactions is the fold of the transition functions (R205; the pending list is the
model's own field, assumption 5). -/
def Obligations.RunIsTheFoldOfTransactions : Prop :=
  ∀ (ts : List Transaction) (s : State),
    Host.Core.run Sys2Proof.core ts.length { s with pending := ts } = runTransactions ts { s with pending := [] }

/-- The capacity never changes, so MCAP reads the same at every read (R6, R34; that the state carries it is the model's choice,
assumption 1). -/
def Obligations.CapacityIsConstant : Prop :=
  ∀ s t : State, step s = .next t → t.msgCap = s.msgCap ∧ regRead 16 t = regRead 16 s

/-! Reset and the modes. -/

/-- RST, in either mode, and the reset input give the same state, with every flag, length and record zero; a malformed RST word
does not reset (R200, R204).  The model's choices in it: that the capacity and the host's two lists stay (assumptions 1 and 5)
and that `exec` of another command in mode FAULTED answers the same state (assumption 9).  What the storage of A to D and DIG
holds is left out (assumption 2). -/
def Obligations.RstAndResetGiveTheResetState : Prop :=
  encode .rst = 0x00000001#32 ∧
  ∀ s : State,
    (∃ t, exec .rst s = .next t ∧ perform .reset s = .next t ∧
      t.sv = false ∧ t.dv = false ∧ t.fault = false ∧ t.cause = none ∧ t.fcmd = 0#32 ∧ t.mlen = 0#32 ∧ t.klen = 0#7 ∧
      t.blk = 0#32 ∧ t.mptr = 0#32 ∧ t.msgCap = s.msgCap ∧ t.pending = s.pending ∧ t.reads = s.reads) ∧
    (s.fault = true → ∀ i, i ≠ .rst → exec i s = .next s) ∧
    (∀ (tr : Transaction) (t : State), s.fault = true → perform tr s = .next t → t.fault = false →
      Transaction.resets tr) ∧
    (s.fault = true → perform (.cmdWrite 0x00000101#32) s = .next s) ∧
    (s.fault = false → perform (.cmdWrite 0x00000101#32) s =
      .next { s with fault := true, cause := some .illegal, fcmd := 0x00000101#32, dv := false })

/-- R42: after either reset, and in the state the machine starts from, the table's values hold, and every register reads 0 but
MCAP, which reads MSG_CAP. -/
def Obligations.ResetRegistersReadZero : Prop :=
  ∀ t : State,
    ((∃ cap, t = State.resetWith cap) ∨ (∃ s, exec .rst s = .next t) ∨ (∃ s, perform .reset s = .next t)) →
    t.sv = false ∧ t.dv = false ∧ t.fault = false ∧ t.cause = none ∧ t.fcmd = 0#32 ∧ t.mlen = 0#32 ∧ t.klen = 0#7 ∧
    t.blk = 0#32 ∧ t.mptr = 0#32 ∧ t.message = [] ∧ t.keyBytes = [] ∧
    ∀ n : Fin 64, regRead n t = if n = 16 then t.msgCap else 0#32

/-- R230: in mode FAULTED every word but RST is ignored, so CAUSE and FCMD keep the first fault. -/
def Obligations.FaultedModeKeepsTheFirstFault : Prop :=
  ∀ s : State, s.fault = true →
    (∀ w : Word, w ≠ 0x00000001#32 → perform (.cmdWrite w) s = .next s) ∧
    (∀ (tr : Transaction) (t : State), ¬ Transaction.resets tr → perform tr s = .next t →
      t.fault = true ∧ t.cause = s.cause ∧ t.fcmd = s.fcmd)

/-- R229: the only exits from mode FAULTED are RST and `Reset`, and both lose message, key, state and digest. -/
def Obligations.OnlyResetLeavesFaultedMode : Prop :=
  ∀ (s t : State) (tr : Transaction), s.fault = true → perform tr s = .next t →
    (t.fault = false ↔ Transaction.resets tr) ∧
    (t.fault = false → t.sv = false ∧ t.dv = false ∧ t.mlen = 0#32 ∧ t.klen = 0#7 ∧ t.blk = 0#32 ∧ t.mptr = 0#32 ∧
      t.cause = none ∧ t.fcmd = 0#32)

/-! Faults. -/

/-- R226, R228: fault entry sets FAULT, CAUSE and FCMD, clears DV and changes nothing else; inside HASH that is relative to the
state after its INIT sub-step.  The digest registers then read 0. -/
def Obligations.FaultEntryIsPrecise : Prop :=
  ∀ (s t : State) (w : Word), s.fault = false → perform (.cmdWrite w) s = .next t → t.fault = true →
    (∀ k : Fin 4, regRead (Fin.ofNat 64 (12 + k.val)) t = 0#32) ∧
    ∃ x : FaultCause,
      (w ≠ 0x00000030#32 ∧ t = { s with fault := true, cause := some x, fcmd := w, dv := false }) ∨
      (w = 0x00000030#32 ∧ x = .alloc ∧
        t = { s with st := iv, blk := 0#32, sv := true, fault := true, cause := some x, fcmd := w, dv := false })

/-- R221: the cause codes, which command raises which fault exactly when, the word recorded, and the commands that never
fault. -/
def Obligations.FaultsAreRaisedExactlyWhenTabled : Prop :=
  causeCode none = 0#4 ∧ causeCode (some .alloc) = 1#4 ∧ causeCode (some .illegal) = 2#4 ∧
  causeCode (some .nostate) = 3#4 ∧ causeCode (some .noblock) = 4#4 ∧
  (∀ c : Option FaultCause, (causeCode c).toNat < 5) ∧
  (∀ s : State, s.Inv → s.fault = false → s.fcmd = 0#32) ∧
  (∀ (s : State) (w : Word), s.fault = false → (∀ i, decode w ≠ .ok i) →
    perform (.cmdWrite w) s = .next { s with fault := true, cause := some .illegal, fcmd := w, dv := false }) ∧
  ∀ (s t : State) (i : Instr), s.fault = false → exec i s = .next t →
    (t.fault = true → t.fcmd = encode i) ∧
    match i with
    | .mapp _ =>
      (t.fault = true ↔ s.msgCap.toNat < s.mlen.toNat + 1) ∧ (t.fault = true → t.cause = some .alloc)
    | .pad =>
      (t.fault = true ↔ s.msgCap.toNat < s.mlen.toNat + (9 + padZeros s.mlen.toNat)) ∧
      (t.fault = true → t.cause = some .alloc)
    | .hash =>
      (t.fault = true ↔ s.msgCap.toNat < s.mlen.toNat + (9 + padZeros s.mlen.toNat)) ∧
      (t.fault = true → t.cause = some .alloc)
    | .cblk =>
      (t.fault = true ↔ s.sv = false ∨ s.mlen.toNat < 64 * (s.blk.toNat + 1)) ∧
      (s.sv = false → t.cause = some .nostate) ∧
      (s.sv = true → t.fault = true → t.cause = some .noblock)
    | .enc => (t.fault = true ↔ s.sv = false) ∧ (t.fault = true → t.cause = some .nostate)
    | .rst => t.fault = false
    | .mclr => t.fault = false
    | .kclr => t.fault = false
    | .kapp _ => t.fault = false
    | .init => t.fault = false
    | .hmac => t.fault = false

/-- Once a fault has been raised no run without a reset makes a digest readable again: DV stays 0 and DIG0 to DIG3 read 0
(R205, R226, R260). -/
def Obligations.NoDigestAfterAFault : Prop :=
  ∀ (s t : State) (ts : List Transaction), s.Inv → s.fault = true → (∀ tr ∈ ts, ¬ Transaction.resets tr) →
    runTransactions ts s = .next t →
    ¬ t.endsWell ∧ ¬ t.digestUsable ∧ t.dv = false ∧
      ∀ k : Fin 4, regRead (Fin.ofNat 64 (12 + k.val)) t = 0#32

/-! The store commands. -/

/-- R120: MCLR in mode READY sets MLEN to 0, raises no fault and changes nothing else. -/
def Obligations.MclrEmptiesTheMessageStore : Prop :=
  encode .mclr = 0x00000010#32 ∧
  ∀ s : State, s.fault = false → exec .mclr s = .next { s with mlen := 0#32 }

/-- R121: MAPP stores its byte at address MLEN and advances MLEN, every other address and field unchanged; on a full store it
raises ALLOC and appends nothing. -/
def Obligations.MappAppendsOneByteOrRaisesAlloc : Prop :=
  ∀ (b : Byte), encode (.mapp b) = 0x00000011#32 + 256#32 * b.zeroExtend 32 ∧
  ∀ s : State, s.fault = false → Memory.wf s.msg →
    (s.mlen.toNat < s.msgCap.toNat → ∃ t, exec (.mapp b) s = .next t ∧
      t = { s with msg := t.msg, mlen := s.mlen + 1#32 } ∧
      t.mlen.toNat = s.mlen.toNat + 1 ∧
      Memory.read t.msg s.mlen.toNat = b ∧
      (∀ a, a ≠ s.mlen.toNat → Memory.read t.msg a = Memory.read s.msg a) ∧
      t.message = s.message ++ [b]) ∧
    (s.mlen = s.msgCap → exec (.mapp b) s =
      .next { s with fault := true, cause := some .alloc, fcmd := encode (.mapp b), dv := false })

/-- R122: KCLR in mode READY sets KLEN to 0, raises no fault and changes nothing else. -/
def Obligations.KclrEmptiesTheKeyStore : Prop :=
  encode .kclr = 0x00000018#32 ∧
  (∀ s : State, s.fault = false → exec .kclr s = .next { s with klen := 0#7 }) ∧
  (∀ s t : State, s.fault = false → exec .kclr s = .next t → t.keyBytes = [])

/-- R123: KAPP stores its byte at KEY[KLEN] and advances KLEN; with 64 bytes loaded it does nothing; KLEN counts up to 64; a
trailing zero byte does not change the HMAC. -/
def Obligations.KappAppendsUpTo64Bytes : Prop :=
  ∀ (b : Byte), encode (.kapp b) = 0x00000019#32 + 256#32 * b.zeroExtend 32 ∧
  (∀ s : State, s.fault = false → Memory.wf s.key →
    (s.klen.toNat < 64 → ∃ t, exec (.kapp b) s = .next t ∧
      t = { s with key := t.key, klen := s.klen + 1#7 } ∧
      t.klen.toNat = s.klen.toNat + 1 ∧
      Memory.read t.key s.klen.toNat = b ∧
      (∀ a, a ≠ s.klen.toNat → Memory.read t.key a = Memory.read s.key a) ∧
      t.keyBytes = s.keyBytes ++ [b]) ∧
    (s.klen.toNat = 64 → exec (.kapp b) s = .next s)) ∧
  (∀ (s : State) (bs : List Byte), s.fault = false → s.klen = 0#7 → ∃ t, runTransactions (loadKey bs) s = .next t ∧
    t.klen.toNat = min bs.length 64 ∧ t = { s with key := t.key, klen := t.klen }) ∧
  (∀ k m : List Byte, hmacMd5 (k ++ [0x00#8]) m = hmacMd5 k m)

/-- Loading a message: one MAPP per byte appends the bytes in order and changes nothing else (R121, R207, R252). -/
def Obligations.MessageBytesLoadInOrder : Prop :=
  ∀ (bs : List Byte) (s : State), s.fault = false → Memory.wf s.msg → s.mlen.toNat + bs.length ≤ s.msgCap.toNat →
    ∃ t, runTransactions (loadMessage bs) s = .next t ∧ t.message = s.message ++ bs ∧
      t.mlen.toNat = s.mlen.toNat + bs.length ∧ t = { s with msg := t.msg, mlen := t.mlen }

/-! The MD5 primitives. -/

/-- R142: INIT in mode READY loads the four constants, sets BLK to 0 and SV to 1, and changes nothing else. -/
def Obligations.InitLoadsTheInitialConstants : Prop :=
  encode .init = 0x00000020#32 ∧
  ∀ s : State, s.fault = false →
    exec .init s = .next { s with
      st := ⟨0x67452301#32, 0xefcdab89#32, 0x98badcfe#32, 0x10325476#32⟩, blk := 0#32, sv := true } ∧
    ∀ t, exec .init s = .next t →
      regRead 8 t = 0x67452301#32 ∧ regRead 9 t = 0xefcdab89#32 ∧ regRead 10 t = 0x98badcfe#32 ∧
      regRead 11 t = 0x10325476#32 ∧ regRead 5 t = 0#32 ∧ exec .init t = .next t

/-- R152: PAD appends the padding tail of the present length, or raises ALLOC before the first byte is written. -/
def Obligations.PadAppendsThePaddingTail : Prop :=
  encode .pad = 0x00000021#32 ∧
  ∀ s : State, s.fault = false → Memory.wf s.msg →
    (s.mlen.toNat + (padTail s.mlen.toNat).length ≤ s.msgCap.toNat → ∃ t, exec .pad s = .next t ∧
      t = { s with msg := t.msg, mlen := t.mlen } ∧
      t.mlen.toNat = s.mlen.toNat + (padTail s.mlen.toNat).length ∧
      t.message = s.message ++ padTail s.mlen.toNat ∧
      (∀ a, a < s.mlen.toNat ∨ s.mlen.toNat + (padTail s.mlen.toNat).length ≤ a →
        Memory.read t.msg a = Memory.read s.msg a) ∧
      t.mlen.toNat % 64 = 0 ∧ 0 < t.mlen.toNat ∧ s.mlen.toNat + 9 ≤ t.mlen.toNat) ∧
    (s.msgCap.toNat < s.mlen.toNat + (padTail s.mlen.toNat).length → exec .pad s =
      .next { s with fault := true, cause := some .alloc, fcmd := 0x00000021#32, dv := false })

/-- R150: CBLK compresses block BLK of the store into the state and advances BLK, or raises NOSTATE, or NOBLOCK; NOSTATE is
reported when both conditions hold. -/
def Obligations.CblkCompressesTheBlockAtTheCursor : Prop :=
  encode .cblk = 0x00000022#32 ∧
  ∀ s : State, s.fault = false →
    (s.sv = false → exec .cblk s =
      .next { s with fault := true, cause := some .nostate, fcmd := 0x00000022#32, dv := false }) ∧
    (s.sv = true → s.mlen.toNat < 64 * (s.blk.toNat + 1) → exec .cblk s =
      .next { s with fault := true, cause := some .noblock, fcmd := 0x00000022#32, dv := false }) ∧
    (s.sv = true → 64 * (s.blk.toNat + 1) ≤ s.mlen.toNat →
      exec .cblk s = .next { s with
        st := md5Compress s.st (Memory.readBytes s.msg (64 * s.blk.toNat) 64), blk := s.blk + 1#32 } ∧
      (s.blk + 1#32).toNat = s.blk.toNat + 1)

/-- R157: ENC writes the digest of the state, sets DV, clears SV and BLK and changes nothing else, so that STA to STD then read 0
and a second ENC faults; with SV = 0 it raises NOSTATE. -/
def Obligations.EncEncodesAndConsumesTheState : Prop :=
  encode .enc = 0x00000023#32 ∧
  ∀ s : State, s.fault = false →
    (s.sv = true → exec .enc s =
      .next { s with dig := md5Encode s.st, dv := true, sv := false, blk := 0#32 }) ∧
    (s.sv = false → exec .enc s =
      .next { s with fault := true, cause := some .nostate, fcmd := 0x00000023#32, dv := false }) ∧
    (∀ t, s.sv = true → exec .enc s = .next t →
      (∀ j : Fin 4, regRead (Fin.ofNat 64 (8 + j.val)) t = 0#32) ∧
      exec .enc t = .next { t with fault := true, cause := some .nostate, fcmd := 0x00000023#32, dv := false })

/-- R37: after ENC the digest registers read the words A to D had, and the digest is their little-endian bytes in order. -/
def Obligations.DigestRegistersReadTheEncodedWords : Prop :=
  (∀ (s : State) (k : Fin 4), regRead (Fin.ofNat 64 (12 + k.val)) s =
    if s.dv = true then
      le32dec (s.dig.get (Fin.ofNat 16 (4 * k.val))) (s.dig.get (Fin.ofNat 16 (4 * k.val + 1)))
        (s.dig.get (Fin.ofNat 16 (4 * k.val + 2))) (s.dig.get (Fin.ofNat 16 (4 * k.val + 3)))
    else 0#32) ∧
  (∀ s t : State, s.fault = false → s.sv = true → exec .enc s = .next t →
    ∀ k : Fin 4, regRead (Fin.ofNat 64 (12 + k.val)) t = s.st.x k) ∧
  (∀ s : State, s.dv = true →
    s.dig.toList = le32enc (regRead 12 s) ++ le32enc (regRead 13 s) ++ le32enc (regRead 14 s) ++ le32enc (regRead 15 s))

/-! The pure functions. -/

/-- R11: the little-endian codecs are inverse to each other and put the low-order byte first. -/
def Obligations.LittleEndianCodecsAreInverse : Prop :=
  (∀ w : Word, le32enc w = [w.extractLsb' 0 8, w.extractLsb' 8 8, w.extractLsb' 16 8, w.extractLsb' 24 8]) ∧
  (∀ b0 b1 b2 b3 : Byte, (le32dec b0 b1 b2 b3).toNat =
    b0.toNat + 2 ^ 8 * b1.toNat + 2 ^ 16 * b2.toNat + 2 ^ 24 * b3.toNat) ∧
  (∀ b0 b1 b2 b3 : Byte, le32enc (le32dec b0 b1 b2 b3) = [b0, b1, b2, b3]) ∧
  (∀ w : Word, le32dec (w.extractLsb' 0 8) (w.extractLsb' 8 8) (w.extractLsb' 16 8) (w.extractLsb' 24 8) = w) ∧
  (∀ (v : BitVec 64) (t : Nat), t < 8 → (le64enc v)[t]? = some (v.extractLsb' (8 * t) 8)) ∧
  (∀ v : BitVec 64, (le64enc v).length = 8)

/-- The rotation moves every bit and loses none, and addition wraps silently (R10, R154). -/
def Obligations.RotationLosesNoBits : Prop :=
  (∀ (x : Word) (s : RotAmount) (k : Nat), k < 32 →
    (rotl32 x s).getLsbD k = x.getLsbD ((k + (32 - s.val)) % 32)) ∧
  (∀ (x : Word) (s s' : RotAmount), s.val + s'.val = 32 → rotl32 (rotl32 x s) s' = x) ∧
  (∀ x y : Word, (x + y).toNat = (x.toNat + y.toNat) % 2 ^ 32)

/-- R143: the nonlinear function of each round, bit by bit. -/
def Obligations.NonlinearFunctionsFollowTheTruthTable : Prop :=
  ∀ (i : Fin 64) (b c d : Word) (k : Nat), k < 32 →
    (i.val / 16 = 0 →
      (nonlinear i b c d).getLsbD k = if b.getLsbD k = true then c.getLsbD k else d.getLsbD k) ∧
    (i.val / 16 = 1 →
      (nonlinear i b c d).getLsbD k = if d.getLsbD k = true then b.getLsbD k else c.getLsbD k) ∧
    (i.val / 16 = 2 →
      (nonlinear i b c d).getLsbD k = (b.getLsbD k ^^ c.getLsbD k ^^ d.getLsbD k)) ∧
    (i.val / 16 = 3 →
      (nonlinear i b c d).getLsbD k = (c.getLsbD k ^^ (b.getLsbD k || !d.getLsbD k)))

/-- R144: the word index of each round, and that each round uses every message word exactly once. -/
def Obligations.WordIndexPermutesTheBlock : Prop :=
  (∀ i : Fin 64,
    (i.val / 16 = 0 → (wordIndex i).val = i.val) ∧
    (i.val / 16 = 1 → (wordIndex i).val = (5 * i.val + 1) % 16) ∧
    (i.val / 16 = 2 → (wordIndex i).val = (3 * i.val + 5) % 16) ∧
    (i.val / 16 = 3 → (wordIndex i).val = (7 * i.val) % 16)) ∧
  (∀ (r : Fin 4) (j : Fin 16), ∃ q : Fin 16, wordIndex (Fin.ofNat 64 (16 * r.val + q.val)) = j ∧
    ∀ q' : Fin 16, wordIndex (Fin.ofNat 64 (16 * r.val + q'.val)) = j → q' = q)

/-- R146: the shift amounts, all between 4 and 23. -/
def Obligations.ShiftAmountsFollowThePatterns : Prop :=
  ∀ i : Fin 64,
    (i.val / 16 = 0 → [7, 12, 17, 22][i.val % 4]? = some (shiftAmount i).val) ∧
    (i.val / 16 = 1 → [5, 9, 14, 20][i.val % 4]? = some (shiftAmount i).val) ∧
    (i.val / 16 = 2 → [4, 11, 16, 23][i.val % 4]? = some (shiftAmount i).val) ∧
    (i.val / 16 = 3 → [6, 10, 15, 21][i.val % 4]? = some (shiftAmount i).val) ∧
    4 ≤ (shiftAmount i).val ∧ (shiftAmount i).val ≤ 23

/-- Worked steps of spec/95_test_vectors.md section 3.3: the first step of the "abc" block and one step of each later round
(R147, R148). -/
def Obligations.WorkedStepsComeOut : Prop :=
  md5Step (blockWords (0x61#8 :: 0x62#8 :: 0x63#8 :: padTail 3)) iv 0 =
    ⟨0x10325476#32, 0xd6d117b4#32, 0xefcdab89#32, 0x98badcfe#32⟩ ∧
  (∀ w : Vector Word 16, w = Vector.ofFn (fun j => BitVec.ofNat 32 (0x01010101 * j.val)) →
    md5Step w iv 16 = ⟨0x10325476#32, 0xcd67e925#32, 0xefcdab89#32, 0x98badcfe#32⟩ ∧
    md5Step w iv 32 = ⟨0x10325476#32, 0x2865f026#32, 0xefcdab89#32, 0x98badcfe#32⟩ ∧
    md5Step w iv 48 = ⟨0x10325476#32, 0xa93cdabd#32, 0xefcdab89#32, 0x98badcfe#32⟩ ∧
    md5Step w ⟨0xffffffff#32, 0xffffffff#32, 0xffffffff#32, 0xffffffff#32⟩ 63 =
      ⟨0xffffffff#32, 0x933e91fa#32, 0xffffffff#32, 0xffffffff#32⟩)

/-- R151, R153: the padding tail and its properties, for every length. -/
def Obligations.PaddingTailProperties : Prop :=
  ∀ len : Nat,
    padTail len = [0x80#8] ++ List.replicate (padZeros len) 0x00#8 ++ le64enc (BitVec.ofNat 64 (8 * len % 2 ^ 64)) ∧
    (padZeros len : Int) = (55 - (len : Int)) % 64 ∧
    padZeros len = (119 - len % 64) % 64 ∧
    (padTail len).length = 9 + padZeros len ∧
    (len + (padTail len).length) % 64 = 0 ∧
    9 ≤ (padTail len).length ∧ (padTail len).length ≤ 72 ∧
    (len % 64 ≤ 55 → len + (padTail len).length = 64 * (len / 64 + 1)) ∧
    (56 ≤ len % 64 → len + (padTail len).length = 64 * (len / 64 + 2)) ∧
    1 ≤ (len + (padTail len).length) / 64 ∧
    (padTail len)[0]? = some 0x80#8 ∧
    (padTail len).drop (1 + padZeros len) = le64enc (BitVec.ofNat 64 (8 * len)) ∧
    (∀ j, 1 ≤ j → j < 1 + padZeros len → (padTail len)[j]? = some 0x00#8)

/-- R156: byte `4k + t` of the digest of a state is bits `8t + 7` to `8t` of its k-th word. -/
def Obligations.DigestBytesAreTheStateBytes : Prop :=
  ∀ st : DigestState,
    (md5Encode st).toList = le32enc st.a ++ le32enc st.b ++ le32enc st.c ++ le32enc st.d ∧
    ∀ k t : Fin 4, (md5Encode st).get (Fin.ofNat 16 (4 * k.val + t.val)) = (st.x k).extractLsb' (8 * t.val) 8

/-- The document's two known digests and the spec's worked HMAC (R183, R187, spec/95_test_vectors.md sections 1 and 3.5). -/
def Obligations.KnownDigestsComeOut : Prop :=
  (md5 []).toList = [0xd4#8, 0x1d#8, 0x8c#8, 0xd9#8, 0x8f#8, 0x00#8, 0xb2#8, 0x04#8,
    0xe9#8, 0x80#8, 0x09#8, 0x98#8, 0xec#8, 0xf8#8, 0x42#8, 0x7e#8] ∧
  (md5 [0x61#8, 0x62#8, 0x63#8]).toList = [0x90#8, 0x01#8, 0x50#8, 0x98#8, 0x3c#8, 0xd2#8, 0x4f#8, 0xb0#8,
    0xd6#8, 0x96#8, 0x3f#8, 0x7d#8, 0x28#8, 0xe1#8, 0x7f#8, 0x72#8] ∧
  (hmacMd5 [0x6b#8, 0x65#8, 0x79#8] [0x61#8, 0x62#8, 0x63#8]).toList =
    [0xd2#8, 0xfe#8, 0x98#8, 0x06#8, 0x3f#8, 0x87#8, 0x6b#8, 0x03#8,
     0x19#8, 0x3a#8, 0xfb#8, 0x49#8, 0xb4#8, 0x97#8, 0x95#8, 0x91#8]

/-- R184: the two masks, exactly 64 bytes whatever the key. -/
def Obligations.MasksAreTheKeyXorTheConstants : Prop :=
  ∀ k : List Byte,
    (ipad k).length = 64 ∧ (opad k).length = 64 ∧
    (∀ i, i < 64 → i < k.length → ∃ b, k[i]? = some b ∧
      (ipad k)[i]? = some (b ^^^ 0x36#8) ∧ (opad k)[i]? = some (b ^^^ 0x5c#8)) ∧
    (∀ i, i < 64 → k.length ≤ i → (ipad k)[i]? = some 0x36#8 ∧ (opad k)[i]? = some 0x5c#8)

/-- R185: the keyed digest is the outer digest of the outer mask and the inner digest; the inner pass pads the length
`64 + len(m)`, the outer pass always 80 bytes in two blocks. -/
def Obligations.HmacIsTwoMaskedPasses : Prop :=
  ∀ k m : List Byte,
    hmacMd5 k m = md5 (opad k ++ (md5 (ipad k ++ m)).toList) ∧
    (ipad k ++ m).length = 64 + m.length ∧
    (opad k ++ (md5 (ipad k ++ m)).toList).length = 80 ∧
    (80 + (padTail 80).length) / 64 = 2 ∧
    (padTail 80).drop 40 = [0x80#8, 0x02#8, 0x00#8, 0x00#8, 0x00#8, 0x00#8, 0x00#8, 0x00#8]

/-- R186: only the key's first 64 bytes count, and KAPP keeps exactly those. -/
def Obligations.LongKeysAreTruncated : Prop :=
  (∀ k m : List Byte, 64 < k.length → hmacMd5 k m = hmacMd5 (k.take 64) m) ∧
  (∀ (s : State) (bs : List Byte), s.fault = false → Memory.wf s.key → s.klen = 0#7 →
    ∃ t, runTransactions (loadKey bs) s = .next t ∧ t.keyBytes = bs.take 64 ∧
      ∀ m : List Byte, hmacMd5 t.keyBytes m = hmacMd5 bs m)

/-- Trailing zero key bytes do not matter (R189). -/
def Obligations.TrailingZeroKeyBytesDoNotMatter : Prop :=
  ∀ (k m : List Byte) (n : Nat), k.length + n ≤ 64 → hmacMd5 (k ++ List.replicate n 0x00#8) m = hmacMd5 k m

/-! The composite commands. -/

/-- R181: HASH leaves the digest of the message in DIG and the store padded, with SV and BLK 0; where the padding does not fit it
raises ALLOC with the effect of its INIT sub-step kept and the store unchanged. -/
def Obligations.HashDigestsTheMessage : Prop :=
  encode .hash = 0x00000030#32 ∧
  ∀ s : State, s.fault = false → Memory.wf s.msg →
    (s.mlen.toNat + (9 + padZeros s.mlen.toNat) ≤ s.msgCap.toNat → ∃ t, exec .hash s = .next t ∧
      t.dig = md5 s.message ∧
      t = { s with
        st := t.st, sv := false, blk := 0#32, dig := md5 s.message, dv := true, msg := t.msg, mlen := t.mlen } ∧
      t.mlen.toNat = s.mlen.toNat + (9 + padZeros s.mlen.toNat) ∧
      t.message = s.message ++ padTail s.mlen.toNat ∧
      (∀ a, a < s.mlen.toNat ∨ s.mlen.toNat + (9 + padZeros s.mlen.toNat) ≤ a →
        Memory.read t.msg a = Memory.read s.msg a)) ∧
    (s.msgCap.toNat < s.mlen.toNat + (9 + padZeros s.mlen.toNat) → exec .hash s =
      .next { s with
        st := iv, sv := true, blk := 0#32, fault := true, cause := some .alloc, fcmd := 0x00000030#32, dv := false })

/-- HASH is the sequence INIT, PAD, CBLK for each block, ENC.  Without a fault the states are the same; after ALLOC they are the
same but for FCMD, which records the HASH word for the one (R33, R181) and the PAD word for the other (R226).  That the "same
state" of R182 leaves FCMD out there is the model's reading (assumption 6).  Without the CBLKs the digest is the encoding of the
initial constants (R182). -/
def Obligations.HashEqualsItsPrimitives : Prop :=
  ∀ s : State, s.fault = false →
    (s.mlen.toNat + (9 + padZeros s.mlen.toNat) ≤ s.msgCap.toNat →
      runTransactions
        ([.cmdWrite 0x00000020#32, .cmdWrite 0x00000021#32] ++
          List.replicate ((s.mlen.toNat + (9 + padZeros s.mlen.toNat)) / 64) (.cmdWrite 0x00000022#32) ++
          [.cmdWrite 0x00000023#32]) s = exec .hash s ∧
      ∃ t, runTransactions [.cmdWrite 0x00000020#32, .cmdWrite 0x00000021#32, .cmdWrite 0x00000023#32] s = .next t ∧
        t.fault = false ∧ t.dig = md5Encode iv) ∧
    (s.msgCap.toNat < s.mlen.toNat + (9 + padZeros s.mlen.toNat) →
      ∀ n, ∃ t, runTransactions
        ([.cmdWrite 0x00000020#32, .cmdWrite 0x00000021#32] ++ List.replicate n (.cmdWrite 0x00000022#32) ++
          [.cmdWrite 0x00000023#32]) s = .next t ∧
        t.fcmd = 0x00000021#32 ∧ exec .hash s = .next { t with fcmd := 0x00000030#32 })

/-- R187: HMAC leaves the keyed digest in DIG, sets DV, clears SV and BLK, and changes neither store; only the storage of A to D
is lost (to values the spec does not give) and no fault is raised. -/
def Obligations.HmacDigestsTheMessageUnderTheKey : Prop :=
  encode .hmac = 0x00000031#32 ∧
  ∀ s : State, s.fault = false → ∃ t, exec .hmac s = .next t ∧
    t.dig = hmacMd5 s.keyBytes s.message ∧
    t = { s with
      st := t.st, free := t.free, dig := hmacMd5 s.keyBytes s.message, dv := true, sv := false, blk := 0#32 }

/-- R188: the host obtains the digest of HMAC with two HASHes over masked messages; the store then holds the padded outer
sequence, where the HMAC command leaves the message. -/
def Obligations.HmacByPrimitives : Prop :=
  ∀ s : State, s.fault = false → Memory.wf s.msg →
    s.mlen.toNat + 64 + (9 + padZeros (s.mlen.toNat + 64)) ≤ s.msgCap.toNat → 128 ≤ s.msgCap.toNat →
    ∃ t u v,
      runTransactions ([.cmdWrite (encode .mclr)] ++ loadMessage (ipad s.keyBytes ++ s.message) ++
        [.cmdWrite (encode .hash)]) s = .next t ∧
      t.dig = md5 (ipad s.keyBytes ++ s.message) ∧
      runTransactions ([.cmdWrite (encode .mclr)] ++ loadMessage (opad s.keyBytes ++ t.dig.toList) ++
        [.cmdWrite (encode .hash)]) t = .next u ∧
      exec .hmac s = .next v ∧
      u.dig = v.dig ∧ u.dv = true ∧ v.dv = true ∧ u.fault = false ∧
      u.mlen.toNat = 128 ∧ u.message = opad s.keyBytes ++ t.dig.toList ++ padTail 80 ∧ v.message = s.message

/-- A second HASH without MCLR digests the padded bytes (R253). -/
def Obligations.SecondHashDigestsThePaddedStore : Prop :=
  ∀ s t : State, s.fault = false → Memory.wf s.msg → exec .hash s = .next t → t.fault = false →
    t.mlen.toNat + (9 + padZeros t.mlen.toNat) ≤ s.msgCap.toNat →
    ∃ u, exec .hash t = .next u ∧ u.fault = false ∧ u.dig = md5 (s.message ++ padTail s.mlen.toNat) ∧
      u.mlen.toNat = t.mlen.toNat + 64

/-- R255: ENC, HASH and HMAC end with SV = 0, and then ENC and CBLK fault with NOSTATE. -/
def Obligations.StateIsConsumed : Prop :=
  ∀ (s t : State) (i : Instr), s.fault = false → i = .enc ∨ i = .hash ∨ i = .hmac →
    exec i s = .next t → t.fault = false →
    t.sv = false ∧
    exec .enc t = .next { t with fault := true, cause := some .nostate, fcmd := encode .enc, dv := false } ∧
    exec .cblk t = .next { t with fault := true, cause := some .nostate, fcmd := encode .cblk, dv := false }

/-! Rules about the whole machine. -/

/-- The invariant holds right after reset, with every legal capacity, the one of `State.reset` (assumption 1) among them. -/
def Obligations.ResetMeetsTheInvariant : Prop :=
  (∀ cap : Word, Config.LegalCapacity cap → (State.resetWith cap).Inv) ∧ State.reset.Inv

/-- Every step from every state that meets the invariant gives a state that meets it. -/
def Obligations.EveryStepKeepsTheInvariant : Prop :=
  ∀ s t : State, s.Inv → step s = .next t → t.Inv

/-- R43: what holds in every reachable state, with every legal capacity, and that `64 * BLK ≤ MLEN` is no invariant. -/
def Obligations.ReachableStatesMeetTheBounds : Prop :=
  ∀ cap : Word, Config.LegalCapacity cap →
    (∀ (ts : List Transaction) (t : State), runTransactions ts (State.resetWith cap) = .next t →
      t.mlen.toNat ≤ t.msgCap.toNat ∧ t.klen.toNat ≤ 64 ∧ (t.cause = none ↔ t.fault = false) ∧
      (t.fault = true → t.dv = false) ∧ t.blk.toNat ≤ t.msgCap.toNat / 64) ∧
    (∃ (ts : List Transaction) (t : State), runTransactions ts (State.resetWith cap) = .next t ∧
      t.sv = true ∧ t.mlen.toNat < 64 * t.blk.toNat) ∧
    (∀ s t : State, exec .cblk s = .next t → s.fault = false → t.fault = false → 64 * t.blk.toNat ≤ t.mlen.toNat)

/-- Nothing changes a byte below MLEN but the resets, and nothing lowers MLEN but MCLR and the resets (R27). -/
def Obligations.TheMessageStoreOnlyGrows : Prop :=
  ∀ (s t : State) (tr : Transaction), perform tr s = .next t →
    (t.mlen.toNat < s.mlen.toNat → Transaction.resets tr ∨ Transaction.writesCommand tr 0x00000010#32) ∧
    (∀ a, a < s.mlen.toNat → Memory.read t.msg a ≠ Memory.read s.msg a → Transaction.resets tr)

/-- R22: which commands read and write A to D, and SV after each; the host cannot write them. -/
def Obligations.TheStateIsTouchedOnlyAsTabled : Prop :=
  (∀ (s t : State) (i : Instr), s.fault = false → exec i s = .next t → t.fault = false →
    match i with
    | .init => t.st = iv ∧ t.sv = true
    | .cblk => s.sv = true ∧ t.sv = true
    | .enc => s.sv = true ∧ t.st = s.st ∧ t.sv = false
    | .hash => t.sv = false
    | .hmac => t.sv = false
    | .rst => t.sv = false
    | .pad => t.st = s.st ∧ t.sv = s.sv
    | .mclr => t.st = s.st ∧ t.sv = s.sv
    | .mapp _ => t.st = s.st ∧ t.sv = s.sv
    | .kclr => t.st = s.st ∧ t.sv = s.sv
    | .kapp _ => t.st = s.st ∧ t.sv = s.sv) ∧
  (∀ (s : State) (q : DigestState), s.fault = false →
    exec .init { s with st := q } = exec .init s ∧ exec .hash { s with st := q } = exec .hash s ∧
    exec .hmac { s with st := q } = exec .hmac s) ∧
  (∀ (s t : State) (n : Fin 64) (v : Word), n ≠ 0 → perform (.regWrite n v) s = .next t → t.st = s.st ∧ t.sv = s.sv)

/-- R24: what sets and what clears each flag. -/
def Obligations.FlagsChangeOnlyAsTabled : Prop :=
  ∀ (s t : State) (tr : Transaction), perform tr s = .next t →
    (s.sv = false → t.sv = true →
      Transaction.writesCommand tr 0x00000020#32 ∨ (Transaction.writesCommand tr 0x00000030#32 ∧ t.fault = true)) ∧
    (s.sv = true → t.sv = false →
      Transaction.writesCommand tr 0x00000023#32 ∨ Transaction.writesCommand tr 0x00000030#32 ∨
      Transaction.writesCommand tr 0x00000031#32 ∨ Transaction.resets tr) ∧
    (s.dv = false → t.dv = true →
      Transaction.writesCommand tr 0x00000023#32 ∨ Transaction.writesCommand tr 0x00000030#32 ∨
      Transaction.writesCommand tr 0x00000031#32) ∧
    (s.dv = true → t.dv = false → (s.fault = false ∧ t.fault = true) ∨ Transaction.resets tr) ∧
    (s.fault = false → t.fault = true → ∃ w, Transaction.writesCommand tr w ∧ t.fcmd = w ∧ t.cause ≠ none) ∧
    (s.fault = true → t.fault = false → Transaction.resets tr)

/-- Key bytes cannot be read back: no register read depends on the key store's bytes, and no transaction but HMAC lets them
reach anything else (R28, R70). -/
def Obligations.KeyBytesReachTheHostOnlyThroughHmac : Prop :=
  (∀ (s : State) (k : Memory) (n : Fin 64), regRead n { s with key := k } = regRead n s) ∧
  (∀ (s t : State) (k : Memory) (tr : Transaction), ¬ Transaction.writesCommand tr 0x00000031#32 →
    perform tr s = .next t → ∃ k', perform tr { s with key := k } = .next { t with key := k' })

/-- What the spec leaves unspecified stays unobservable: states the host cannot tell apart read the same and step to states it
cannot tell apart (R42).  So no claim about what the host sees rests on the fillers of `Config` or on the free values. -/
def Obligations.UnspecifiedStorageIsUnobservable : Prop :=
  ∀ s t : State, s.Inv → t.Inv → State.SameToHost s t →
    (∀ n : Fin 64, regRead n s = regRead n t) ∧
    (∀ s', step s = .next s' → ∃ t', step t = .next t' ∧ State.SameToHost s' t')

/-! Host programs. -/

/-- Pseudo-instructions expand to fixed sequences of transactions, and an operand out of range is an assembler error
(R98, R99; how a line's text is cut into words is the model's choice, assumption 8). -/
def Obligations.ProgramLinesExpand : Prop :=
  assemble [.msg ['a', 'b', 'c'], .command .hash, .rd (.name .status)] =
    some [.cmdWrite 0x00000010#32, .cmdWrite 0x00006111#32, .cmdWrite 0x00006211#32, .cmdWrite 0x00006311#32,
      .cmdWrite 0x00000030#32, .regRead 1] ∧
  assemble [.key ['k'], .mfill 0x61 2, .wr (.name .mptr) 3, .rddig, .reset] =
    some [.cmdWrite 0x00000018#32, .cmdWrite 0x00006b19#32, .cmdWrite 0x00006111#32, .cmdWrite 0x00006111#32,
      .regWrite 6 3#32, .regRead 12, .regRead 13, .regRead 14, .regRead 15, .reset] ∧
  assembleText [['M', 'A', 'P', 'P', ' ', '\'', 'a', '\'', ' ', '#'], ['R', 'D', ' ', '7'], []] =
    some [.cmdWrite 0x00006111#32, .regRead 7] ∧
  assembleText [['M', 'B', 'Y', 'T', 'E', 'S', ' ', '\'', ',', '\'', ',', ' ', '1'],
      ['K', 'F', 'I', 'L', 'L', ' ', '\'', ',', '\'', ',', ' ', '2']] =
    some [.cmdWrite 0x00002c11#32, .cmdWrite 0x00000111#32, .cmdWrite 0x00002c19#32, .cmdWrite 0x00002c19#32] ∧
  assemble [.mapp 256] = none ∧ assemble [.rd (.number 64)] = none
end

