-- ==== Sys2Proof/Laws/Md5.lean ====
section
/-! SUPPORT. Small facts about the pure functions: lengths, and how a block sequence is split. -/

namespace Sys2Proof.Machine

@[simp] theorem le32enc_length (w : Word) : (le32enc w).length = 4 := rfl

@[simp] theorem le64enc_length (v : BitVec 64) : (le64enc v).length = 8 := rfl

theorem padZeros_lt (len : Nat) : padZeros len < 64 := by
  unfold padZeros; omega

@[simp] theorem padTail_length (len : Nat) : (padTail len).length = 9 + padZeros len := by
  simp [padTail]; omega

/-- The padded length is a whole number of blocks. -/
theorem padded_mod (len : Nat) : (len + (9 + padZeros len)) % 64 = 0 := by
  unfold padZeros; omega

@[simp] theorem keyMask_length (k : List Byte) (c : Byte) : (keyMask k c).length = 64 := by
  simp [keyMask]

@[simp] theorem ipad_length (k : List Byte) : (ipad k).length = 64 := keyMask_length k _

@[simp] theorem opad_length (k : List Byte) : (opad k).length = 64 := keyMask_length k _

/-- Two keys with the same first 64 bytes, counting absent ones as zero, have the same masks. -/
theorem keyMask_congr {k k' : List Byte} (h : ∀ i, i < 64 → k.getD i 0x00#8 = k'.getD i 0x00#8) (c : Byte) :
    keyMask k c = keyMask k' c := by
  refine List.map_congr_left fun i hi => ?_
  rw [h i (List.mem_range.1 hi)]

/-- Two keys with the same masked bytes give the same keyed digest. -/
theorem hmacMd5_congr {k k' : List Byte} (h : ∀ i, i < 64 → k.getD i 0x00#8 = k'.getD i 0x00#8) (m : List Byte) :
    hmacMd5 k m = hmacMd5 k' m := by
  simp only [hmacMd5, hmacInner, ipad, opad, keyMask_congr h]

@[simp] theorem compressBlocks_zero (st : DigestState) (p : List Byte) (k : Nat) : compressBlocks st p k 0 = st := (rfl)

/-- The first of the remaining blocks is compressed, then the others. -/
theorem compressBlocks_succ (st : DigestState) (p : List Byte) (k n : Nat) :
    compressBlocks st p k (n + 1) = compressBlocks (md5Compress st (blockOf p k)) p (k + 1) n := (rfl)

end Sys2Proof.Machine
end

