-- ==== Sys2Proof/Laws/Memory.lean ====
section
/-! SUPPORT. The laws of the byte memories: read after write, writes leave other addresses alone, and every operation keeps
the canonical form. -/

namespace Sys2Proof.Machine.Memory

@[simp] theorem read_nil (a : Nat) : read [] a = Config.unlistedByte := rfl

theorem wf_nil : wf [] := ⟨List.Pairwise.nil, by simp⟩

theorem wf_tail {c : Host.Cell} {m : Memory} (h : wf (c :: m)) : wf m :=
  ⟨(List.pairwise_cons.1 h.1).2, fun x hx => h.2 x (List.mem_cons_of_mem _ hx)⟩

/-- Below the first listed address nothing is listed. -/
theorem read_of_below {m : Memory} {a : Nat} (h : ∀ c ∈ m, a < c.1) : read m a = Config.unlistedByte := by
  induction m with
  | nil => rfl
  | cons c rest ih =>
    have hc := h c (by simp)
    simp only [read, if_neg (Nat.ne_of_gt hc)]
    exact ih fun x hx => h x (List.mem_cons_of_mem _ hx)

theorem mem_list {a : Nat} {b : Byte} {m : Memory} {c : Host.Cell} (h : c ∈ list a b m) :
    (c = (a, b) ∧ b ≠ Config.unlistedByte) ∨ c ∈ m := by
  unfold list at h
  split at h
  · exact .inr h
  · rcases List.mem_cons.1 h with h | h
    · exact .inl ⟨h, ‹_›⟩
    · exact .inr h

/-- A cell listed after a write is the written one or was listed before. -/
theorem mem_write {m : Memory} {a : Nat} {b : Byte} {c : Host.Cell} (h : c ∈ write m a b) :
    (c = (a, b) ∧ b ≠ Config.unlistedByte) ∨ c ∈ m := by
  induction m with
  | nil => exact mem_list h
  | cons d rest ih =>
    unfold write at h
    split at h
    · exact mem_list h
    · split at h
      · rcases mem_list h with h | h
        · exact .inl h
        · exact .inr (List.mem_cons_of_mem _ h)
      · rcases List.mem_cons.1 h with h | h
        · exact .inr (h ▸ List.mem_cons_self)
        · rcases ih h with h | h
          · exact .inl h
          · exact .inr (List.mem_cons_of_mem _ h)

theorem wf_list {a : Nat} {b : Byte} {m : Memory} (h : wf m) (ha : ∀ c ∈ m, a < c.1) : wf (list a b m) := by
  unfold list
  split
  · exact h
  · refine ⟨List.pairwise_cons.2 ⟨ha, h.1⟩, fun c hc => ?_⟩
    rcases List.mem_cons.1 hc with rfl | hc
    · assumption
    · exact h.2 c hc

/-- A write keeps the canonical form. -/
theorem write_wf {m : Memory} (h : wf m) (a : Nat) (b : Byte) : wf (write m a b) := by
  induction m with
  | nil => exact wf_list h (by simp)
  | cons c rest ih =>
    have hrest := List.pairwise_cons.1 h.1
    unfold write
    split
    · rename_i hlt
      refine wf_list h fun d hd => ?_
      rcases List.mem_cons.1 hd with rfl | hd
      · exact hlt
      · exact Nat.lt_trans hlt (hrest.1 d hd)
    · rename_i hge
      split
      · rename_i heq
        exact wf_list (wf_tail h) fun d hd => heq ▸ hrest.1 d hd
      · rename_i hne
        have ih := ih (wf_tail h)
        refine ⟨List.pairwise_cons.2 ⟨fun d hd => ?_, ih.1⟩, fun d hd => ?_⟩
        · rcases mem_write hd with ⟨rfl, -⟩ | hd
          · exact Nat.lt_of_le_of_ne (Nat.le_of_not_lt hge) (Ne.symm hne)
          · exact hrest.1 d hd
        · rcases List.mem_cons.1 hd with rfl | hd
          · exact h.2 d List.mem_cons_self
          · exact ih.2 d hd

/-- A write below a bound keeps every listed address below it. -/
theorem write_below {m : Memory} {n : Nat} (h : below m n) {a : Nat} (ha : a < n) (b : Byte) : below (write m a b) n := by
  intro c hc
  rcases mem_write hc with ⟨rfl, -⟩ | hc
  · exact ha
  · exact h c hc

theorem read_list_self {a : Nat} {b : Byte} {m : Memory} (ha : ∀ c ∈ m, a < c.1) : read (list a b m) a = b := by
  unfold list
  split
  · rename_i hb
    rw [read_of_below ha, hb]
  · simp [read]

theorem read_list_other {a x : Nat} {b : Byte} {m : Memory} (h : x ≠ a) : read (list a b m) x = read m x := by
  unfold list
  split
  · rfl
  · simp [read, Ne.symm h]

/-- A read after a write to the same address gives the value written. -/
theorem read_write_self {m : Memory} (h : wf m) (a : Nat) (b : Byte) : read (write m a b) a = b := by
  induction m with
  | nil => exact read_list_self (by simp)
  | cons c rest ih =>
    have hrest := List.pairwise_cons.1 h.1
    unfold write
    split
    · rename_i hlt
      refine read_list_self fun d hd => ?_
      rcases List.mem_cons.1 hd with rfl | hd
      · exact hlt
      · exact Nat.lt_trans hlt (hrest.1 d hd)
    · split
      · rename_i heq
        exact read_list_self fun d hd => heq ▸ hrest.1 d hd
      · rename_i hne
        simp only [read, if_neg (Ne.symm hne)]
        exact ih (wf_tail h)

/-- A write leaves every other address alone. -/
theorem read_write_other (m : Memory) {a x : Nat} (b : Byte) (hx : x ≠ a) : read (write m a b) x = read m x := by
  induction m with
  | nil => exact read_list_other hx
  | cons c rest ih =>
    unfold write
    split
    · exact read_list_other hx
    · split
      · rename_i heq
        rw [read_list_other hx]
        simp [read, ← heq, Ne.symm hx]
      · simp only [read, ih]

/-- Writing a byte sequence keeps the canonical form. -/
theorem writeBytes_wf {m : Memory} (h : wf m) (a : Nat) (bs : List Byte) : wf (writeBytes m a bs) := by
  induction bs generalizing m a with
  | nil => exact h
  | cons b bs ih => exact ih (write_wf h a b) (a + 1)

/-- Writing a byte sequence below a bound keeps every listed address below it. -/
theorem writeBytes_below {m : Memory} {n : Nat} (h : below m n) {a : Nat} {bs : List Byte} (ha : a + bs.length ≤ n) :
    below (writeBytes m a bs) n := by
  induction bs generalizing m a with
  | nil => exact h
  | cons b bs ih =>
    simp only [List.length_cons] at ha
    exact ih (write_below h (by omega) b) (by omega)

/-- Writing a byte sequence leaves every address outside it alone. -/
theorem read_writeBytes_other (m : Memory) {a x : Nat} {bs : List Byte} (hx : x < a ∨ a + bs.length ≤ x) :
    read (writeBytes m a bs) x = read m x := by
  induction bs generalizing m a with
  | nil => rfl
  | cons b bs ih =>
    simp only [List.length_cons] at hx
    rw [writeBytes, ih _ (by omega), read_write_other _ _ (by omega)]

/-- After writing a byte sequence, address `a + i` reads as its byte `i`. -/
theorem read_writeBytes {m : Memory} (h : wf m) {a : Nat} {bs : List Byte} {i : Nat} (hi : i < bs.length) :
    read (writeBytes m a bs) (a + i) = bs[i] := by
  induction bs generalizing m a i with
  | nil => simp at hi
  | cons b bs ih =>
    cases i with
    | zero =>
      rw [writeBytes, read_writeBytes_other _ (by omega)]
      exact read_write_self h _ _
    | succ i =>
      have := ih (write_wf h a b) (a := a + 1) (i := i) (by simpa using hi)
      simpa [writeBytes, Nat.add_assoc, Nat.add_comm 1 i] using this

@[simp] theorem readBytes_length (m : Memory) (a n : Nat) : (readBytes m a n).length = n := by
  induction n generalizing a with
  | zero => rfl
  | succ n ih => simp [readBytes, ih]

@[simp] theorem readBytes_getElem (m : Memory) (a n i : Nat) (h : i < (readBytes m a n).length) :
    (readBytes m a n)[i] = read m (a + i) := by
  induction n generalizing a i with
  | zero => simp [readBytes] at h
  | succ n ih =>
    cases i with
    | zero => rfl
    | succ i => simp [readBytes, ih, Nat.add_assoc, Nat.add_comm 1 i]

/-- Two memories that agree on a range read as the same byte sequence there. -/
theorem readBytes_congr {m m' : Memory} {a n : Nat} (h : ∀ x, a ≤ x → x < a + n → read m x = read m' x) :
    readBytes m a n = readBytes m' a n := by
  refine List.ext_getElem (by simp) fun i hi _ => ?_
  simp only [readBytes_length] at hi
  simp [h (a + i) (by omega) (by omega)]

theorem readBytes_add (m : Memory) (a n k : Nat) : readBytes m a (n + k) = readBytes m a n ++ readBytes m (a + n) k := by
  induction n generalizing a with
  | zero => simp [readBytes]
  | succ n ih =>
    rw [Nat.add_right_comm, readBytes, ih, readBytes, List.cons_append, Nat.add_assoc, Nat.add_comm 1 n]

/-- A byte sequence reads back as it was written. -/
theorem readBytes_writeBytes {m : Memory} (h : wf m) (a : Nat) (bs : List Byte) :
    readBytes (writeBytes m a bs) a bs.length = bs := by
  refine List.ext_getElem (by simp) fun i hi hi' => ?_
  rw [readBytes_getElem, read_writeBytes h hi']

/-- A part of a byte sequence read from a memory. -/
theorem drop_take_readBytes (m : Memory) {a n k l : Nat} (h : k + l ≤ n) :
    ((readBytes m a n).drop k).take l = readBytes m (a + k) l := by
  refine List.ext_getElem (by simp; omega) fun i hi _ => ?_
  simp [Nat.add_assoc]

end Sys2Proof.Machine.Memory
end

