-- ==== Sys2Proof/Laws/State.lean ====
section
/-! SUPPORT. What each update of the state does to each field: one lemma per field per update, so that no proof unfolds a
record update.  The proofs are written `(rfl)`: simp then uses them as plain equations, and never checks one by comparing two
whole states, which could set the kernel to computing a digest. -/

namespace Sys2Proof.Machine.State

/-! `startState`: INIT. -/

@[simp] theorem startState_msgCap (s : State) : (s.startState).msgCap = s.msgCap := (rfl)
@[simp] theorem startState_st (s : State) : (s.startState).st = iv := (rfl)
@[simp] theorem startState_sv (s : State) : (s.startState).sv = true := (rfl)
@[simp] theorem startState_blk (s : State) : (s.startState).blk = 0#32 := (rfl)
@[simp] theorem startState_dig (s : State) : (s.startState).dig = s.dig := (rfl)
@[simp] theorem startState_dv (s : State) : (s.startState).dv = s.dv := (rfl)
@[simp] theorem startState_msg (s : State) : (s.startState).msg = s.msg := (rfl)
@[simp] theorem startState_mlen (s : State) : (s.startState).mlen = s.mlen := (rfl)
@[simp] theorem startState_key (s : State) : (s.startState).key = s.key := (rfl)
@[simp] theorem startState_klen (s : State) : (s.startState).klen = s.klen := (rfl)
@[simp] theorem startState_fault (s : State) : (s.startState).fault = s.fault := (rfl)
@[simp] theorem startState_cause (s : State) : (s.startState).cause = s.cause := (rfl)
@[simp] theorem startState_fcmd (s : State) : (s.startState).fcmd = s.fcmd := (rfl)
@[simp] theorem startState_mptr (s : State) : (s.startState).mptr = s.mptr := (rfl)
@[simp] theorem startState_pending (s : State) : (s.startState).pending = s.pending := (rfl)
@[simp] theorem startState_reads (s : State) : (s.startState).reads = s.reads := (rfl)
@[simp] theorem startState_free (s : State) : (s.startState).free = s.free := (rfl)

/-! `advance`: CBLK. -/

@[simp] theorem advance_msgCap (s : State) (q : DigestState) : (s.advance q).msgCap = s.msgCap := (rfl)
@[simp] theorem advance_st (s : State) (q : DigestState) : (s.advance q).st = q := (rfl)
@[simp] theorem advance_sv (s : State) (q : DigestState) : (s.advance q).sv = s.sv := (rfl)
@[simp] theorem advance_blk (s : State) (q : DigestState) : (s.advance q).blk = s.blk + 1#32 := (rfl)
@[simp] theorem advance_dig (s : State) (q : DigestState) : (s.advance q).dig = s.dig := (rfl)
@[simp] theorem advance_dv (s : State) (q : DigestState) : (s.advance q).dv = s.dv := (rfl)
@[simp] theorem advance_msg (s : State) (q : DigestState) : (s.advance q).msg = s.msg := (rfl)
@[simp] theorem advance_mlen (s : State) (q : DigestState) : (s.advance q).mlen = s.mlen := (rfl)
@[simp] theorem advance_key (s : State) (q : DigestState) : (s.advance q).key = s.key := (rfl)
@[simp] theorem advance_klen (s : State) (q : DigestState) : (s.advance q).klen = s.klen := (rfl)
@[simp] theorem advance_fault (s : State) (q : DigestState) : (s.advance q).fault = s.fault := (rfl)
@[simp] theorem advance_cause (s : State) (q : DigestState) : (s.advance q).cause = s.cause := (rfl)
@[simp] theorem advance_fcmd (s : State) (q : DigestState) : (s.advance q).fcmd = s.fcmd := (rfl)
@[simp] theorem advance_mptr (s : State) (q : DigestState) : (s.advance q).mptr = s.mptr := (rfl)
@[simp] theorem advance_pending (s : State) (q : DigestState) : (s.advance q).pending = s.pending := (rfl)
@[simp] theorem advance_reads (s : State) (q : DigestState) : (s.advance q).reads = s.reads := (rfl)
@[simp] theorem advance_free (s : State) (q : DigestState) : (s.advance q).free = s.free := (rfl)

/-! `putDigest`: ENC and HMAC. -/

@[simp] theorem putDigest_msgCap (s : State) (v : Vector Byte 16) : (s.putDigest v).msgCap = s.msgCap := (rfl)
@[simp] theorem putDigest_st (s : State) (v : Vector Byte 16) : (s.putDigest v).st = s.st := (rfl)
@[simp] theorem putDigest_sv (s : State) (v : Vector Byte 16) : (s.putDigest v).sv = false := (rfl)
@[simp] theorem putDigest_blk (s : State) (v : Vector Byte 16) : (s.putDigest v).blk = 0#32 := (rfl)
@[simp] theorem putDigest_dig (s : State) (v : Vector Byte 16) : (s.putDigest v).dig = v := (rfl)
@[simp] theorem putDigest_dv (s : State) (v : Vector Byte 16) : (s.putDigest v).dv = true := (rfl)
@[simp] theorem putDigest_msg (s : State) (v : Vector Byte 16) : (s.putDigest v).msg = s.msg := (rfl)
@[simp] theorem putDigest_mlen (s : State) (v : Vector Byte 16) : (s.putDigest v).mlen = s.mlen := (rfl)
@[simp] theorem putDigest_key (s : State) (v : Vector Byte 16) : (s.putDigest v).key = s.key := (rfl)
@[simp] theorem putDigest_klen (s : State) (v : Vector Byte 16) : (s.putDigest v).klen = s.klen := (rfl)
@[simp] theorem putDigest_fault (s : State) (v : Vector Byte 16) : (s.putDigest v).fault = s.fault := (rfl)
@[simp] theorem putDigest_cause (s : State) (v : Vector Byte 16) : (s.putDigest v).cause = s.cause := (rfl)
@[simp] theorem putDigest_fcmd (s : State) (v : Vector Byte 16) : (s.putDigest v).fcmd = s.fcmd := (rfl)
@[simp] theorem putDigest_mptr (s : State) (v : Vector Byte 16) : (s.putDigest v).mptr = s.mptr := (rfl)
@[simp] theorem putDigest_pending (s : State) (v : Vector Byte 16) : (s.putDigest v).pending = s.pending := (rfl)
@[simp] theorem putDigest_reads (s : State) (v : Vector Byte 16) : (s.putDigest v).reads = s.reads := (rfl)
@[simp] theorem putDigest_free (s : State) (v : Vector Byte 16) : (s.putDigest v).free = s.free := (rfl)

/-! `clobber`: HMAC. -/

@[simp] theorem clobber_msgCap (s : State) : (s.clobber).msgCap = s.msgCap := (rfl)
@[simp] theorem clobber_st (s : State) : (s.clobber).st = ⟨Config.freeWord s.free, Config.freeWord (s.free + 1), Config.freeWord (s.free + 2), Config.freeWord (s.free + 3)⟩ := (rfl)
@[simp] theorem clobber_sv (s : State) : (s.clobber).sv = s.sv := (rfl)
@[simp] theorem clobber_blk (s : State) : (s.clobber).blk = s.blk := (rfl)
@[simp] theorem clobber_dig (s : State) : (s.clobber).dig = s.dig := (rfl)
@[simp] theorem clobber_dv (s : State) : (s.clobber).dv = s.dv := (rfl)
@[simp] theorem clobber_msg (s : State) : (s.clobber).msg = s.msg := (rfl)
@[simp] theorem clobber_mlen (s : State) : (s.clobber).mlen = s.mlen := (rfl)
@[simp] theorem clobber_key (s : State) : (s.clobber).key = s.key := (rfl)
@[simp] theorem clobber_klen (s : State) : (s.clobber).klen = s.klen := (rfl)
@[simp] theorem clobber_fault (s : State) : (s.clobber).fault = s.fault := (rfl)
@[simp] theorem clobber_cause (s : State) : (s.clobber).cause = s.cause := (rfl)
@[simp] theorem clobber_fcmd (s : State) : (s.clobber).fcmd = s.fcmd := (rfl)
@[simp] theorem clobber_mptr (s : State) : (s.clobber).mptr = s.mptr := (rfl)
@[simp] theorem clobber_pending (s : State) : (s.clobber).pending = s.pending := (rfl)
@[simp] theorem clobber_reads (s : State) : (s.clobber).reads = s.reads := (rfl)
@[simp] theorem clobber_free (s : State) : (s.clobber).free = s.free + 4 := (rfl)

/-! `appended`: MAPP and PAD. -/

@[simp] theorem appended_msgCap (s : State) (bs : List Byte) : (s.appended bs).msgCap = s.msgCap := (rfl)
@[simp] theorem appended_st (s : State) (bs : List Byte) : (s.appended bs).st = s.st := (rfl)
@[simp] theorem appended_sv (s : State) (bs : List Byte) : (s.appended bs).sv = s.sv := (rfl)
@[simp] theorem appended_blk (s : State) (bs : List Byte) : (s.appended bs).blk = s.blk := (rfl)
@[simp] theorem appended_dig (s : State) (bs : List Byte) : (s.appended bs).dig = s.dig := (rfl)
@[simp] theorem appended_dv (s : State) (bs : List Byte) : (s.appended bs).dv = s.dv := (rfl)
@[simp] theorem appended_msg (s : State) (bs : List Byte) : (s.appended bs).msg = Memory.writeBytes s.msg s.mlen.toNat bs := (rfl)
@[simp] theorem appended_mlen (s : State) (bs : List Byte) : (s.appended bs).mlen = s.mlen + BitVec.ofNat 32 bs.length := (rfl)
@[simp] theorem appended_key (s : State) (bs : List Byte) : (s.appended bs).key = s.key := (rfl)
@[simp] theorem appended_klen (s : State) (bs : List Byte) : (s.appended bs).klen = s.klen := (rfl)
@[simp] theorem appended_fault (s : State) (bs : List Byte) : (s.appended bs).fault = s.fault := (rfl)
@[simp] theorem appended_cause (s : State) (bs : List Byte) : (s.appended bs).cause = s.cause := (rfl)
@[simp] theorem appended_fcmd (s : State) (bs : List Byte) : (s.appended bs).fcmd = s.fcmd := (rfl)
@[simp] theorem appended_mptr (s : State) (bs : List Byte) : (s.appended bs).mptr = s.mptr := (rfl)
@[simp] theorem appended_pending (s : State) (bs : List Byte) : (s.appended bs).pending = s.pending := (rfl)
@[simp] theorem appended_reads (s : State) (bs : List Byte) : (s.appended bs).reads = s.reads := (rfl)
@[simp] theorem appended_free (s : State) (bs : List Byte) : (s.appended bs).free = s.free := (rfl)

/-! `emptyMessage`: MCLR. -/

@[simp] theorem emptyMessage_msgCap (s : State) : (s.emptyMessage).msgCap = s.msgCap := (rfl)
@[simp] theorem emptyMessage_st (s : State) : (s.emptyMessage).st = s.st := (rfl)
@[simp] theorem emptyMessage_sv (s : State) : (s.emptyMessage).sv = s.sv := (rfl)
@[simp] theorem emptyMessage_blk (s : State) : (s.emptyMessage).blk = s.blk := (rfl)
@[simp] theorem emptyMessage_dig (s : State) : (s.emptyMessage).dig = s.dig := (rfl)
@[simp] theorem emptyMessage_dv (s : State) : (s.emptyMessage).dv = s.dv := (rfl)
@[simp] theorem emptyMessage_msg (s : State) : (s.emptyMessage).msg = s.msg := (rfl)
@[simp] theorem emptyMessage_mlen (s : State) : (s.emptyMessage).mlen = 0#32 := (rfl)
@[simp] theorem emptyMessage_key (s : State) : (s.emptyMessage).key = s.key := (rfl)
@[simp] theorem emptyMessage_klen (s : State) : (s.emptyMessage).klen = s.klen := (rfl)
@[simp] theorem emptyMessage_fault (s : State) : (s.emptyMessage).fault = s.fault := (rfl)
@[simp] theorem emptyMessage_cause (s : State) : (s.emptyMessage).cause = s.cause := (rfl)
@[simp] theorem emptyMessage_fcmd (s : State) : (s.emptyMessage).fcmd = s.fcmd := (rfl)
@[simp] theorem emptyMessage_mptr (s : State) : (s.emptyMessage).mptr = s.mptr := (rfl)
@[simp] theorem emptyMessage_pending (s : State) : (s.emptyMessage).pending = s.pending := (rfl)
@[simp] theorem emptyMessage_reads (s : State) : (s.emptyMessage).reads = s.reads := (rfl)
@[simp] theorem emptyMessage_free (s : State) : (s.emptyMessage).free = s.free := (rfl)

/-! `keyAppended`: KAPP. -/

@[simp] theorem keyAppended_msgCap (s : State) (b : Byte) : (s.keyAppended b).msgCap = s.msgCap := (rfl)
@[simp] theorem keyAppended_st (s : State) (b : Byte) : (s.keyAppended b).st = s.st := (rfl)
@[simp] theorem keyAppended_sv (s : State) (b : Byte) : (s.keyAppended b).sv = s.sv := (rfl)
@[simp] theorem keyAppended_blk (s : State) (b : Byte) : (s.keyAppended b).blk = s.blk := (rfl)
@[simp] theorem keyAppended_dig (s : State) (b : Byte) : (s.keyAppended b).dig = s.dig := (rfl)
@[simp] theorem keyAppended_dv (s : State) (b : Byte) : (s.keyAppended b).dv = s.dv := (rfl)
@[simp] theorem keyAppended_msg (s : State) (b : Byte) : (s.keyAppended b).msg = s.msg := (rfl)
@[simp] theorem keyAppended_mlen (s : State) (b : Byte) : (s.keyAppended b).mlen = s.mlen := (rfl)
@[simp] theorem keyAppended_key (s : State) (b : Byte) : (s.keyAppended b).key = Memory.write s.key s.klen.toNat b := (rfl)
@[simp] theorem keyAppended_klen (s : State) (b : Byte) : (s.keyAppended b).klen = s.klen + 1#7 := (rfl)
@[simp] theorem keyAppended_fault (s : State) (b : Byte) : (s.keyAppended b).fault = s.fault := (rfl)
@[simp] theorem keyAppended_cause (s : State) (b : Byte) : (s.keyAppended b).cause = s.cause := (rfl)
@[simp] theorem keyAppended_fcmd (s : State) (b : Byte) : (s.keyAppended b).fcmd = s.fcmd := (rfl)
@[simp] theorem keyAppended_mptr (s : State) (b : Byte) : (s.keyAppended b).mptr = s.mptr := (rfl)
@[simp] theorem keyAppended_pending (s : State) (b : Byte) : (s.keyAppended b).pending = s.pending := (rfl)
@[simp] theorem keyAppended_reads (s : State) (b : Byte) : (s.keyAppended b).reads = s.reads := (rfl)
@[simp] theorem keyAppended_free (s : State) (b : Byte) : (s.keyAppended b).free = s.free := (rfl)

/-! `emptyKey`: KCLR. -/

@[simp] theorem emptyKey_msgCap (s : State) : (s.emptyKey).msgCap = s.msgCap := (rfl)
@[simp] theorem emptyKey_st (s : State) : (s.emptyKey).st = s.st := (rfl)
@[simp] theorem emptyKey_sv (s : State) : (s.emptyKey).sv = s.sv := (rfl)
@[simp] theorem emptyKey_blk (s : State) : (s.emptyKey).blk = s.blk := (rfl)
@[simp] theorem emptyKey_dig (s : State) : (s.emptyKey).dig = s.dig := (rfl)
@[simp] theorem emptyKey_dv (s : State) : (s.emptyKey).dv = s.dv := (rfl)
@[simp] theorem emptyKey_msg (s : State) : (s.emptyKey).msg = s.msg := (rfl)
@[simp] theorem emptyKey_mlen (s : State) : (s.emptyKey).mlen = s.mlen := (rfl)
@[simp] theorem emptyKey_key (s : State) : (s.emptyKey).key = s.key := (rfl)
@[simp] theorem emptyKey_klen (s : State) : (s.emptyKey).klen = 0#7 := (rfl)
@[simp] theorem emptyKey_fault (s : State) : (s.emptyKey).fault = s.fault := (rfl)
@[simp] theorem emptyKey_cause (s : State) : (s.emptyKey).cause = s.cause := (rfl)
@[simp] theorem emptyKey_fcmd (s : State) : (s.emptyKey).fcmd = s.fcmd := (rfl)
@[simp] theorem emptyKey_mptr (s : State) : (s.emptyKey).mptr = s.mptr := (rfl)
@[simp] theorem emptyKey_pending (s : State) : (s.emptyKey).pending = s.pending := (rfl)
@[simp] theorem emptyKey_reads (s : State) : (s.emptyKey).reads = s.reads := (rfl)
@[simp] theorem emptyKey_free (s : State) : (s.emptyKey).free = s.free := (rfl)

/-! `setMptr`: a write of MPTR. -/

@[simp] theorem setMptr_msgCap (s : State) (v : Word) : (s.setMptr v).msgCap = s.msgCap := (rfl)
@[simp] theorem setMptr_st (s : State) (v : Word) : (s.setMptr v).st = s.st := (rfl)
@[simp] theorem setMptr_sv (s : State) (v : Word) : (s.setMptr v).sv = s.sv := (rfl)
@[simp] theorem setMptr_blk (s : State) (v : Word) : (s.setMptr v).blk = s.blk := (rfl)
@[simp] theorem setMptr_dig (s : State) (v : Word) : (s.setMptr v).dig = s.dig := (rfl)
@[simp] theorem setMptr_dv (s : State) (v : Word) : (s.setMptr v).dv = s.dv := (rfl)
@[simp] theorem setMptr_msg (s : State) (v : Word) : (s.setMptr v).msg = s.msg := (rfl)
@[simp] theorem setMptr_mlen (s : State) (v : Word) : (s.setMptr v).mlen = s.mlen := (rfl)
@[simp] theorem setMptr_key (s : State) (v : Word) : (s.setMptr v).key = s.key := (rfl)
@[simp] theorem setMptr_klen (s : State) (v : Word) : (s.setMptr v).klen = s.klen := (rfl)
@[simp] theorem setMptr_fault (s : State) (v : Word) : (s.setMptr v).fault = s.fault := (rfl)
@[simp] theorem setMptr_cause (s : State) (v : Word) : (s.setMptr v).cause = s.cause := (rfl)
@[simp] theorem setMptr_fcmd (s : State) (v : Word) : (s.setMptr v).fcmd = s.fcmd := (rfl)
@[simp] theorem setMptr_mptr (s : State) (v : Word) : (s.setMptr v).mptr = v := (rfl)
@[simp] theorem setMptr_pending (s : State) (v : Word) : (s.setMptr v).pending = s.pending := (rfl)
@[simp] theorem setMptr_reads (s : State) (v : Word) : (s.setMptr v).reads = s.reads := (rfl)
@[simp] theorem setMptr_free (s : State) (v : Word) : (s.setMptr v).free = s.free := (rfl)

/-! `pushRead`: a register read. -/

@[simp] theorem pushRead_msgCap (s : State) (v : Word) : (s.pushRead v).msgCap = s.msgCap := (rfl)
@[simp] theorem pushRead_st (s : State) (v : Word) : (s.pushRead v).st = s.st := (rfl)
@[simp] theorem pushRead_sv (s : State) (v : Word) : (s.pushRead v).sv = s.sv := (rfl)
@[simp] theorem pushRead_blk (s : State) (v : Word) : (s.pushRead v).blk = s.blk := (rfl)
@[simp] theorem pushRead_dig (s : State) (v : Word) : (s.pushRead v).dig = s.dig := (rfl)
@[simp] theorem pushRead_dv (s : State) (v : Word) : (s.pushRead v).dv = s.dv := (rfl)
@[simp] theorem pushRead_msg (s : State) (v : Word) : (s.pushRead v).msg = s.msg := (rfl)
@[simp] theorem pushRead_mlen (s : State) (v : Word) : (s.pushRead v).mlen = s.mlen := (rfl)
@[simp] theorem pushRead_key (s : State) (v : Word) : (s.pushRead v).key = s.key := (rfl)
@[simp] theorem pushRead_klen (s : State) (v : Word) : (s.pushRead v).klen = s.klen := (rfl)
@[simp] theorem pushRead_fault (s : State) (v : Word) : (s.pushRead v).fault = s.fault := (rfl)
@[simp] theorem pushRead_cause (s : State) (v : Word) : (s.pushRead v).cause = s.cause := (rfl)
@[simp] theorem pushRead_fcmd (s : State) (v : Word) : (s.pushRead v).fcmd = s.fcmd := (rfl)
@[simp] theorem pushRead_mptr (s : State) (v : Word) : (s.pushRead v).mptr = s.mptr := (rfl)
@[simp] theorem pushRead_pending (s : State) (v : Word) : (s.pushRead v).pending = s.pending := (rfl)
@[simp] theorem pushRead_reads (s : State) (v : Word) : (s.pushRead v).reads = s.reads ++ [v] := (rfl)
@[simp] theorem pushRead_free (s : State) (v : Word) : (s.pushRead v).free = s.free := (rfl)

/-! `setPending`: the step. -/

@[simp] theorem setPending_msgCap (s : State) (ts : List Transaction) : (s.setPending ts).msgCap = s.msgCap := (rfl)
@[simp] theorem setPending_st (s : State) (ts : List Transaction) : (s.setPending ts).st = s.st := (rfl)
@[simp] theorem setPending_sv (s : State) (ts : List Transaction) : (s.setPending ts).sv = s.sv := (rfl)
@[simp] theorem setPending_blk (s : State) (ts : List Transaction) : (s.setPending ts).blk = s.blk := (rfl)
@[simp] theorem setPending_dig (s : State) (ts : List Transaction) : (s.setPending ts).dig = s.dig := (rfl)
@[simp] theorem setPending_dv (s : State) (ts : List Transaction) : (s.setPending ts).dv = s.dv := (rfl)
@[simp] theorem setPending_msg (s : State) (ts : List Transaction) : (s.setPending ts).msg = s.msg := (rfl)
@[simp] theorem setPending_mlen (s : State) (ts : List Transaction) : (s.setPending ts).mlen = s.mlen := (rfl)
@[simp] theorem setPending_key (s : State) (ts : List Transaction) : (s.setPending ts).key = s.key := (rfl)
@[simp] theorem setPending_klen (s : State) (ts : List Transaction) : (s.setPending ts).klen = s.klen := (rfl)
@[simp] theorem setPending_fault (s : State) (ts : List Transaction) : (s.setPending ts).fault = s.fault := (rfl)
@[simp] theorem setPending_cause (s : State) (ts : List Transaction) : (s.setPending ts).cause = s.cause := (rfl)
@[simp] theorem setPending_fcmd (s : State) (ts : List Transaction) : (s.setPending ts).fcmd = s.fcmd := (rfl)
@[simp] theorem setPending_mptr (s : State) (ts : List Transaction) : (s.setPending ts).mptr = s.mptr := (rfl)
@[simp] theorem setPending_pending (s : State) (ts : List Transaction) : (s.setPending ts).pending = ts := (rfl)
@[simp] theorem setPending_reads (s : State) (ts : List Transaction) : (s.setPending ts).reads = s.reads := (rfl)
@[simp] theorem setPending_free (s : State) (ts : List Transaction) : (s.setPending ts).free = s.free := (rfl)

/-! `raise`: fault entry. -/

@[simp] theorem raise_msgCap (s : State) (x : FaultCause) (w : Word) : (s.raise x w).msgCap = s.msgCap := (rfl)
@[simp] theorem raise_st (s : State) (x : FaultCause) (w : Word) : (s.raise x w).st = s.st := (rfl)
@[simp] theorem raise_sv (s : State) (x : FaultCause) (w : Word) : (s.raise x w).sv = s.sv := (rfl)
@[simp] theorem raise_blk (s : State) (x : FaultCause) (w : Word) : (s.raise x w).blk = s.blk := (rfl)
@[simp] theorem raise_dig (s : State) (x : FaultCause) (w : Word) : (s.raise x w).dig = s.dig := (rfl)
@[simp] theorem raise_dv (s : State) (x : FaultCause) (w : Word) : (s.raise x w).dv = false := (rfl)
@[simp] theorem raise_msg (s : State) (x : FaultCause) (w : Word) : (s.raise x w).msg = s.msg := (rfl)
@[simp] theorem raise_mlen (s : State) (x : FaultCause) (w : Word) : (s.raise x w).mlen = s.mlen := (rfl)
@[simp] theorem raise_key (s : State) (x : FaultCause) (w : Word) : (s.raise x w).key = s.key := (rfl)
@[simp] theorem raise_klen (s : State) (x : FaultCause) (w : Word) : (s.raise x w).klen = s.klen := (rfl)
@[simp] theorem raise_fault (s : State) (x : FaultCause) (w : Word) : (s.raise x w).fault = true := (rfl)
@[simp] theorem raise_cause (s : State) (x : FaultCause) (w : Word) : (s.raise x w).cause = some x := (rfl)
@[simp] theorem raise_fcmd (s : State) (x : FaultCause) (w : Word) : (s.raise x w).fcmd = w := (rfl)
@[simp] theorem raise_mptr (s : State) (x : FaultCause) (w : Word) : (s.raise x w).mptr = s.mptr := (rfl)
@[simp] theorem raise_pending (s : State) (x : FaultCause) (w : Word) : (s.raise x w).pending = s.pending := (rfl)
@[simp] theorem raise_reads (s : State) (x : FaultCause) (w : Word) : (s.raise x w).reads = s.reads := (rfl)
@[simp] theorem raise_free (s : State) (x : FaultCause) (w : Word) : (s.raise x w).free = s.free := (rfl)

/-! `resetEngine`: RST and Reset. -/

@[simp] theorem resetEngine_msgCap (s : State) : (s.resetEngine).msgCap = s.msgCap := (rfl)
@[simp] theorem resetEngine_st (s : State) : (s.resetEngine).st = ⟨Config.resetWord, Config.resetWord, Config.resetWord, Config.resetWord⟩ := (rfl)
@[simp] theorem resetEngine_sv (s : State) : (s.resetEngine).sv = false := (rfl)
@[simp] theorem resetEngine_blk (s : State) : (s.resetEngine).blk = 0#32 := (rfl)
@[simp] theorem resetEngine_dig (s : State) : (s.resetEngine).dig = Vector.replicate 16 Config.resetByte := (rfl)
@[simp] theorem resetEngine_dv (s : State) : (s.resetEngine).dv = false := (rfl)
@[simp] theorem resetEngine_msg (s : State) : (s.resetEngine).msg = [] := (rfl)
@[simp] theorem resetEngine_mlen (s : State) : (s.resetEngine).mlen = 0#32 := (rfl)
@[simp] theorem resetEngine_key (s : State) : (s.resetEngine).key = [] := (rfl)
@[simp] theorem resetEngine_klen (s : State) : (s.resetEngine).klen = 0#7 := (rfl)
@[simp] theorem resetEngine_fault (s : State) : (s.resetEngine).fault = false := (rfl)
@[simp] theorem resetEngine_cause (s : State) : (s.resetEngine).cause = none := (rfl)
@[simp] theorem resetEngine_fcmd (s : State) : (s.resetEngine).fcmd = 0#32 := (rfl)
@[simp] theorem resetEngine_mptr (s : State) : (s.resetEngine).mptr = 0#32 := (rfl)
@[simp] theorem resetEngine_pending (s : State) : (s.resetEngine).pending = s.pending := (rfl)
@[simp] theorem resetEngine_reads (s : State) : (s.resetEngine).reads = s.reads := (rfl)
@[simp] theorem resetEngine_free (s : State) : (s.resetEngine).free = s.free := (rfl)

/-! The reset state. -/

@[simp] theorem resetWith_msgCap (cap : Word) : (State.resetWith cap).msgCap = cap := (rfl)
@[simp] theorem resetWith_st (cap : Word) : (State.resetWith cap).st = ⟨Config.resetWord, Config.resetWord, Config.resetWord, Config.resetWord⟩ := (rfl)
@[simp] theorem resetWith_sv (cap : Word) : (State.resetWith cap).sv = false := (rfl)
@[simp] theorem resetWith_blk (cap : Word) : (State.resetWith cap).blk = 0#32 := (rfl)
@[simp] theorem resetWith_dig (cap : Word) : (State.resetWith cap).dig = Vector.replicate 16 Config.resetByte := (rfl)
@[simp] theorem resetWith_dv (cap : Word) : (State.resetWith cap).dv = false := (rfl)
@[simp] theorem resetWith_msg (cap : Word) : (State.resetWith cap).msg = [] := (rfl)
@[simp] theorem resetWith_mlen (cap : Word) : (State.resetWith cap).mlen = 0#32 := (rfl)
@[simp] theorem resetWith_key (cap : Word) : (State.resetWith cap).key = [] := (rfl)
@[simp] theorem resetWith_klen (cap : Word) : (State.resetWith cap).klen = 0#7 := (rfl)
@[simp] theorem resetWith_fault (cap : Word) : (State.resetWith cap).fault = false := (rfl)
@[simp] theorem resetWith_cause (cap : Word) : (State.resetWith cap).cause = none := (rfl)
@[simp] theorem resetWith_fcmd (cap : Word) : (State.resetWith cap).fcmd = 0#32 := (rfl)
@[simp] theorem resetWith_mptr (cap : Word) : (State.resetWith cap).mptr = 0#32 := (rfl)
@[simp] theorem resetWith_pending (cap : Word) : (State.resetWith cap).pending = [] := (rfl)
@[simp] theorem resetWith_reads (cap : Word) : (State.resetWith cap).reads = [] := (rfl)
@[simp] theorem resetWith_free (cap : Word) : (State.resetWith cap).free = 0 := (rfl)

end Sys2Proof.Machine.State
end

