-- ==== Sys2Proof/Laws/Ops.lean ====
section
/-! SUPPORT. What each shared operation can do, said once: one lemma per operation and outcome. -/

namespace Sys2Proof.Machine

/-! The mode test. -/

theorem whenReady_ready {s : State} (h : s.fault = false) (r : State) : whenReady s r = .next r := by
  simp [whenReady, h]

theorem whenReady_faulted {s : State} (h : s.fault = true) (r : State) : whenReady s r = .next s := by
  simp [whenReady, h]

/-- Everything the mode test can answer. -/
theorem whenReady_cases {s r t : State} (h : whenReady s r = .next t) :
    (s.fault = true ∧ t = s) ∨ (s.fault = false ∧ t = r) := by
  cases hf : s.fault with
  | true => exact .inl ⟨rfl, by simpa [whenReady, hf] using h.symm⟩
  | false => exact .inr ⟨rfl, by simpa [whenReady, hf] using h.symm⟩

/-! Sub-steps. -/

@[simp] theorem finished_state (s : State) : (Progress.finished s).state = s := (rfl)

@[simp] theorem raised_state (s : State) : (Progress.raised s).state = s := (rfl)

@[simp] theorem finished_andThen (s : State) (f : State → Progress) : (Progress.finished s).andThen f = f s := (rfl)

@[simp] theorem raised_andThen (s : State) (f : State → Progress) : (Progress.raised s).andThen f = .raised s := (rfl)

theorem fits_iff (s : State) (n : Nat) : s.fits n = true ↔ s.mlen.toNat + n ≤ s.msgCap.toNat := by
  simp [State.fits]

theorem hasBlock_iff (s : State) : s.hasBlock = true ↔ 64 * (s.blk.toNat + 1) ≤ s.mlen.toNat := by
  simp [State.hasBlock]

theorem appendOrRaise_fits {w : Word} {bs : List Byte} {s : State} (h : s.mlen.toNat + bs.length ≤ s.msgCap.toNat) :
    appendOrRaise w bs s = .finished (s.appended bs) := by
  simp [appendOrRaise, (fits_iff s _).2 h]

theorem appendOrRaise_full {w : Word} {bs : List Byte} {s : State} (h : s.msgCap.toNat < s.mlen.toNat + bs.length) :
    appendOrRaise w bs s = .raised (s.raise .alloc w) := by
  have : s.fits bs.length = false := by simp [State.fits]; omega
  simp [appendOrRaise, this]

theorem padStep_fits {w : Word} {s : State} (h : s.mlen.toNat + (9 + padZeros s.mlen.toNat) ≤ s.msgCap.toNat) :
    padStep w s = .finished (s.appended (padTail s.mlen.toNat)) :=
  appendOrRaise_fits (by simpa using h)

theorem padStep_full {w : Word} {s : State} (h : s.msgCap.toNat < s.mlen.toNat + (9 + padZeros s.mlen.toNat)) :
    padStep w s = .raised (s.raise .alloc w) :=
  appendOrRaise_full (by simpa using h)

theorem cblkStep_nostate {w : Word} {s : State} (h : s.sv = false) : cblkStep w s = .raised (s.raise .nostate w) := by
  simp [cblkStep, h]

theorem cblkStep_noblock {w : Word} {s : State} (h : s.sv = true) (hb : s.mlen.toNat < 64 * (s.blk.toNat + 1)) :
    cblkStep w s = .raised (s.raise .noblock w) := by
  have : s.hasBlock = false := by simp [State.hasBlock]; omega
  simp [cblkStep, h, this]

theorem cblkStep_block {w : Word} {s : State} (h : s.sv = true) (hb : 64 * (s.blk.toNat + 1) ≤ s.mlen.toNat) :
    cblkStep w s = .finished (s.advance (md5Compress s.st s.block)) := by
  simp [cblkStep, h, (hasBlock_iff s).2 hb]

theorem encStep_nostate {w : Word} {s : State} (h : s.sv = false) : encStep w s = .raised (s.raise .nostate w) := by
  simp [encStep, h]

theorem encStep_state {w : Word} {s : State} (h : s.sv = true) : encStep w s = .finished (s.putDigest (md5Encode s.st)) := by
  simp [encStep, h]

/-! The message store after an append. -/

/-- An append that fits does not wrap MLEN. -/
theorem appended_mlen_toNat {s : State} {bs : List Byte} (h : s.mlen.toNat + bs.length ≤ s.msgCap.toNat) :
    (s.appended bs).mlen.toNat = s.mlen.toNat + bs.length := by
  have := s.msgCap.isLt
  simp only [State.appended_mlen, BitVec.toNat_add, BitVec.toNat_ofNat]
  omega

/-- An append that fits puts the bytes after the message. -/
theorem appended_message {s : State} {bs : List Byte} (hwf : Memory.wf s.msg)
    (h : s.mlen.toNat + bs.length ≤ s.msgCap.toNat) : (s.appended bs).message = s.message ++ bs := by
  simp only [State.message]
  rw [appended_mlen_toNat h, Memory.readBytes_add, State.appended_msg, Nat.zero_add, Memory.readBytes_writeBytes hwf]
  congr 1
  exact Memory.readBytes_congr fun x _ hx => Memory.read_writeBytes_other _ (.inl (by omega))

@[simp] theorem message_length (s : State) : s.message.length = s.mlen.toNat := Memory.readBytes_length _ _ _

@[simp] theorem keyBytes_length (s : State) : s.keyBytes.length = s.klen.toNat := Memory.readBytes_length _ _ _

/-- A KAPP below 64 bytes does not wrap KLEN. -/
theorem keyAppended_klen_toNat {s : State} (b : Byte) (h : s.klen.toNat < 64) :
    (s.keyAppended b).klen.toNat = s.klen.toNat + 1 := by
  simp only [State.keyAppended_klen, BitVec.toNat_add, BitVec.toNat_ofNat]
  omega

/-- A KAPP below 64 bytes puts the byte after the key. -/
theorem keyAppended_keyBytes {s : State} (b : Byte) (hwf : Memory.wf s.key) (h : s.klen.toNat < 64) :
    (s.keyAppended b).keyBytes = s.keyBytes ++ [b] := by
  simp only [State.keyBytes]
  rw [keyAppended_klen_toNat b h, Memory.readBytes_add, State.keyAppended_key, Nat.zero_add]
  congr 1
  · exact Memory.readBytes_congr fun x _ hx => Memory.read_write_other _ _ (by omega)
  · simp [Memory.readBytes, Memory.read_write_self hwf]

/-- The block at the cursor is the block of the message. -/
theorem block_eq_blockOf {s : State} (h : 64 * (s.blk.toNat + 1) ≤ s.mlen.toNat) :
    s.block = blockOf s.message s.blk.toNat := by
  rw [State.block, State.blockAddress, blockOf, State.message, Memory.drop_take_readBytes _ (by omega), Nat.zero_add]

/-! Repeated CBLK. -/

/-- One CBLK over a whole block, then the others. -/
theorem cblkSteps_succ {w : Word} {n : Nat} {s : State} (h : s.sv = true) (hb : 64 * (s.blk.toNat + 1) ≤ s.mlen.toNat) :
    cblkSteps w (n + 1) s = cblkSteps w n (s.advance (md5Compress s.st (blockOf s.message s.blk.toNat))) := by
  rw [cblkSteps, cblkStep_block h hb, finished_andThen, block_eq_blockOf hb]

/-- A CBLK does not change the message. -/
@[simp] theorem advance_message (s : State) (q : DigestState) : (s.advance q).message = s.message := (rfl)

/-- The cursor does not wrap while a whole block lies at it. -/
theorem advance_blk_toNat {s : State} (q : DigestState) (hb : 64 * (s.blk.toNat + 1) ≤ s.mlen.toNat) :
    (s.advance q).blk.toNat = s.blk.toNat + 1 := by
  have := s.mlen.isLt
  simp only [State.advance_blk, BitVec.toNat_add, BitVec.toNat_ofNat]
  omega

/-- `n` CBLKs over `n` whole blocks from the cursor on: the state takes them in order, the cursor passes them, nothing else
changes. -/
theorem cblkSteps_blocks {w : Word} {n : Nat} {s : State} (h : s.sv = true) (hb : 64 * (s.blk.toNat + n) ≤ s.mlen.toNat) :
    cblkSteps w n s = .finished { s with
      st := compressBlocks s.st s.message s.blk.toNat n, blk := s.blk + BitVec.ofNat 32 n } := by
  induction n generalizing s with
  | zero => simp [cblkSteps]
  | succ n ih =>
    have hn : s.blk + 1#32 + BitVec.ofNat 32 n = s.blk + BitVec.ofNat 32 (n + 1) := by
      apply BitVec.eq_of_toNat_eq
      simp only [BitVec.toNat_add, BitVec.toNat_ofNat]
      omega
    have step (q : DigestState) : cblkSteps w n (s.advance q) = .finished { s with
        st := compressBlocks q s.message (s.blk.toNat + 1) n, blk := s.blk + BitVec.ofNat 32 (n + 1) } := by
      have hblk := advance_blk_toNat q (s := s) (by omega)
      rw [ih (s := s.advance q) h (by rw [hblk, State.advance_mlen]; omega), hblk, advance_message, State.advance_blk, hn]
      rfl
    rw [cblkSteps_succ h (by omega), step, compressBlocks_succ]

/-! Everything each sub-step can do. -/

theorem appendOrRaise_cases (w : Word) (bs : List Byte) (s : State) :
    (s.mlen.toNat + bs.length ≤ s.msgCap.toNat ∧ appendOrRaise w bs s = .finished (s.appended bs)) ∨
    (s.msgCap.toNat < s.mlen.toNat + bs.length ∧ appendOrRaise w bs s = .raised (s.raise .alloc w)) := by
  by_cases h : s.mlen.toNat + bs.length ≤ s.msgCap.toNat
  · exact .inl ⟨h, appendOrRaise_fits h⟩
  · exact .inr ⟨by omega, appendOrRaise_full (by omega)⟩

theorem padStep_cases (w : Word) (s : State) :
    (s.mlen.toNat + (9 + padZeros s.mlen.toNat) ≤ s.msgCap.toNat ∧
      padStep w s = .finished (s.appended (padTail s.mlen.toNat))) ∨
    (s.msgCap.toNat < s.mlen.toNat + (9 + padZeros s.mlen.toNat) ∧ padStep w s = .raised (s.raise .alloc w)) := by
  simpa [padStep] using appendOrRaise_cases w (padTail s.mlen.toNat) s

theorem cblkStep_cases (w : Word) (s : State) :
    (s.sv = false ∧ cblkStep w s = .raised (s.raise .nostate w)) ∨
    (s.sv = true ∧ s.mlen.toNat < 64 * (s.blk.toNat + 1) ∧ cblkStep w s = .raised (s.raise .noblock w)) ∨
    (s.sv = true ∧ 64 * (s.blk.toNat + 1) ≤ s.mlen.toNat ∧
      cblkStep w s = .finished (s.advance (md5Compress s.st s.block))) := by
  cases h : s.sv with
  | false => exact .inl ⟨rfl, cblkStep_nostate h⟩
  | true =>
    by_cases hb : 64 * (s.blk.toNat + 1) ≤ s.mlen.toNat
    · exact .inr (.inr ⟨rfl, hb, cblkStep_block h hb⟩)
    · exact .inr (.inl ⟨rfl, by omega, cblkStep_noblock h (by omega)⟩)

theorem encStep_cases (w : Word) (s : State) :
    (s.sv = false ∧ encStep w s = .raised (s.raise .nostate w)) ∨
    (s.sv = true ∧ encStep w s = .finished (s.putDigest (md5Encode s.st))) := by
  cases h : s.sv with
  | false => exact .inl ⟨rfl, encStep_nostate h⟩
  | true => exact .inr ⟨rfl, encStep_state h⟩

/-- The final state of the words when HASH runs through: the blocks of the padded store, from the initial constants. -/
def hashWords (s : State) : DigestState :=
  compressBlocks iv (s.appended (padTail s.mlen.toNat)).message 0 ((s.mlen.toNat + (9 + padZeros s.mlen.toNat)) / 64)

/-- The state after HASH runs through: the store padded, the words compressed and encoded, the state consumed. -/
def hashedState (s : State) : State :=
  ({ s with st := hashWords s } : State).appended (padTail s.mlen.toNat) |>.putDigest (md5Encode (hashWords s))

@[simp] theorem hashedState_msgCap (s : State) : (hashedState s).msgCap = s.msgCap := (rfl)
@[simp] theorem hashedState_st (s : State) : (hashedState s).st = hashWords s := (rfl)
@[simp] theorem hashedState_sv (s : State) : (hashedState s).sv = false := (rfl)
@[simp] theorem hashedState_blk (s : State) : (hashedState s).blk = 0#32 := (rfl)
@[simp] theorem hashedState_dig (s : State) : (hashedState s).dig = md5Encode (hashWords s) := (rfl)
@[simp] theorem hashedState_dv (s : State) : (hashedState s).dv = true := (rfl)
@[simp] theorem hashedState_msg (s : State) : (hashedState s).msg = (s.appended (padTail s.mlen.toNat)).msg := (rfl)
@[simp] theorem hashedState_mlen (s : State) : (hashedState s).mlen = (s.appended (padTail s.mlen.toNat)).mlen := (rfl)
@[simp] theorem hashedState_key (s : State) : (hashedState s).key = s.key := (rfl)
@[simp] theorem hashedState_klen (s : State) : (hashedState s).klen = s.klen := (rfl)
@[simp] theorem hashedState_fault (s : State) : (hashedState s).fault = s.fault := (rfl)
@[simp] theorem hashedState_cause (s : State) : (hashedState s).cause = s.cause := (rfl)
@[simp] theorem hashedState_fcmd (s : State) : (hashedState s).fcmd = s.fcmd := (rfl)
@[simp] theorem hashedState_mptr (s : State) : (hashedState s).mptr = s.mptr := (rfl)
@[simp] theorem hashedState_pending (s : State) : (hashedState s).pending = s.pending := (rfl)
@[simp] theorem hashedState_reads (s : State) : (hashedState s).reads = s.reads := (rfl)
@[simp] theorem hashedState_free (s : State) : (hashedState s).free = s.free := (rfl)

/-- HASH where the padding fits. -/
theorem hashSteps_fits {w : Word} {s : State} (h : s.mlen.toNat + (9 + padZeros s.mlen.toNat) ≤ s.msgCap.toNat) :
    hashSteps w s = .finished (hashedState s) := by
  obtain ⟨p, hp⟩ : ∃ p, p = s.startState.appended (padTail s.mlen.toNat) := ⟨_, rfl⟩
  have hpad : padStep w s.startState = .finished p := by rw [padStep_fits (s := s.startState) h, hp]; rfl
  have hl : p.mlen.toNat = s.mlen.toNat + (9 + padZeros s.mlen.toNat) := by
    rw [hp, appended_mlen_toNat (by simpa using h)]; simp
  have hb : p.blk.toNat = 0 := by rw [hp]; rfl
  have hsv : p.sv = true := by rw [hp]; rfl
  have hst : p.st = iv := by rw [hp]; rfl
  have hm : p.message = (s.appended (padTail s.mlen.toNat)).message := by rw [hp]; rfl
  have hc : p.blockCount = (s.mlen.toNat + (9 + padZeros s.mlen.toNat)) / 64 := by rw [State.blockCount, hl]
  have hmod := padded_mod s.mlen.toNat
  rw [hashSteps, hpad, finished_andThen, cblkSteps_blocks hsv (by rw [hb, hc, hl]; omega), finished_andThen, encStep,
    if_neg (by simp [hsv]), hst, hm, hb, hc, ← hashWords, hashedState]
  generalize hashWords s = q
  rw [hp]
  rfl

/-- HASH where the padding does not fit: ALLOC, with the effect of INIT kept. -/
theorem hashSteps_full {w : Word} {s : State} (h : s.msgCap.toNat < s.mlen.toNat + (9 + padZeros s.mlen.toNat)) :
    hashSteps w s = .raised (s.startState.raise .alloc w) := by
  rw [hashSteps, padStep_full (s := s.startState) h]
  rfl

end Sys2Proof.Machine
end

