-- ==== Sys2Proof/Laws/Commands.lean ====
section
/-! SUPPORT. What each command does in mode READY and in mode FAULTED, what each transaction does, and how runs compose: the
lemmas to cite instead of unfolding `exec`, `perform` and `runTransactions`. -/

namespace Sys2Proof.Machine

/-! Commands in mode FAULTED and in mode READY. -/

/-- In mode FAULTED every command but RST is ignored. -/
theorem exec_faulted {i : Instr} {s : State} (h : s.fault = true) (hi : i ≠ .rst) : exec i s = .next s := by
  cases i with
  | rst => exact absurd rfl hi
  | mclr => exact whenReady_faulted h _
  | mapp b => exact whenReady_faulted h _
  | kclr => exact whenReady_faulted h _
  | kapp b => exact whenReady_faulted h _
  | init => exact whenReady_faulted h _
  | pad => exact whenReady_faulted h _
  | cblk => exact whenReady_faulted h _
  | enc => exact whenReady_faulted h _
  | hash => exact whenReady_faulted h _
  | hmac => exact whenReady_faulted h _

theorem exec_rst (s : State) : exec .rst s = .next s.resetEngine := (rfl)

theorem exec_mclr {s : State} (h : s.fault = false) : exec .mclr s = .next s.emptyMessage := whenReady_ready h _

theorem exec_mapp {s : State} (h : s.fault = false) (b : Byte) :
    exec (.mapp b) s = .next (appendOrRaise (encode (.mapp b)) [b] s).state := whenReady_ready h _

theorem exec_kclr {s : State} (h : s.fault = false) : exec .kclr s = .next s.emptyKey := whenReady_ready h _

theorem exec_kapp {s : State} (h : s.fault = false) (b : Byte) :
    exec (.kapp b) s = .next (if s.klen.toNat < 64 then s.keyAppended b else s) := whenReady_ready h _

theorem exec_init {s : State} (h : s.fault = false) : exec .init s = .next s.startState := whenReady_ready h _

theorem exec_pad {s : State} (h : s.fault = false) : exec .pad s = .next (padStep (encode .pad) s).state :=
  whenReady_ready h _

theorem exec_cblk {s : State} (h : s.fault = false) : exec .cblk s = .next (cblkStep (encode .cblk) s).state :=
  whenReady_ready h _

theorem exec_enc {s : State} (h : s.fault = false) : exec .enc s = .next (encStep (encode .enc) s).state :=
  whenReady_ready h _

theorem exec_hash {s : State} (h : s.fault = false) : exec .hash s = .next (hashSteps (encode .hash) s).state :=
  whenReady_ready h _

theorem exec_hmac {s : State} (h : s.fault = false) : exec .hmac s = .next (hmacState s) := whenReady_ready h _

/-- Everything HASH's sub-steps can do. -/
theorem hashSteps_cases (w : Word) (s : State) :
    (s.mlen.toNat + (9 + padZeros s.mlen.toNat) ≤ s.msgCap.toNat ∧
      hashSteps w s = .finished (hashedState s)) ∨
    (s.msgCap.toNat < s.mlen.toNat + (9 + padZeros s.mlen.toNat) ∧
      hashSteps w s = .raised (s.startState.raise .alloc w)) := by
  by_cases h : s.mlen.toNat + (9 + padZeros s.mlen.toNat) ≤ s.msgCap.toNat
  · exact .inl ⟨h, hashSteps_fits h⟩
  · exact .inr ⟨by omega, hashSteps_full (by omega)⟩

/-- Everything a command can do, guards included. -/
theorem exec_cases {i : Instr} {s t : State} (h : exec i s = .next t) :
    (s.fault = true ∧ i ≠ .rst ∧ t = s) ∨ (i = .rst ∧ t = s.resetEngine) ∨ (s.fault = false ∧
      ((i = .mclr ∧ t = s.emptyMessage) ∨
       (∃ b, i = .mapp b ∧ s.mlen.toNat + 1 ≤ s.msgCap.toNat ∧ t = s.appended [b]) ∨
       (∃ b, i = .mapp b ∧ s.msgCap.toNat < s.mlen.toNat + 1 ∧ t = s.raise .alloc (encode i)) ∨
       (i = .kclr ∧ t = s.emptyKey) ∨
       (∃ b, i = .kapp b ∧ s.klen.toNat < 64 ∧ t = s.keyAppended b) ∨
       (∃ b, i = .kapp b ∧ 64 ≤ s.klen.toNat ∧ t = s) ∨
       (i = .init ∧ t = s.startState) ∨
       (i = .pad ∧ s.mlen.toNat + (9 + padZeros s.mlen.toNat) ≤ s.msgCap.toNat ∧
         t = s.appended (padTail s.mlen.toNat)) ∨
       (i = .pad ∧ s.msgCap.toNat < s.mlen.toNat + (9 + padZeros s.mlen.toNat) ∧ t = s.raise .alloc (encode i)) ∨
       (i = .cblk ∧ s.sv = false ∧ t = s.raise .nostate (encode i)) ∨
       (i = .cblk ∧ s.sv = true ∧ s.mlen.toNat < 64 * (s.blk.toNat + 1) ∧ t = s.raise .noblock (encode i)) ∨
       (i = .cblk ∧ s.sv = true ∧ 64 * (s.blk.toNat + 1) ≤ s.mlen.toNat ∧
         t = s.advance (md5Compress s.st s.block)) ∨
       (i = .enc ∧ s.sv = false ∧ t = s.raise .nostate (encode i)) ∨
       (i = .enc ∧ s.sv = true ∧ t = s.putDigest (md5Encode s.st)) ∨
       (i = .hash ∧ s.mlen.toNat + (9 + padZeros s.mlen.toNat) ≤ s.msgCap.toNat ∧
         t = hashedState s) ∨
       (i = .hash ∧ s.msgCap.toNat < s.mlen.toNat + (9 + padZeros s.mlen.toNat) ∧
         t = s.startState.raise .alloc (encode i)) ∨
       (i = .hmac ∧ t = hmacState s))) := by
  cases hf : s.fault with
  | true =>
    by_cases hi : i = .rst
    · subst hi
      cases h
      simp
    · rw [exec_faulted hf hi] at h
      cases h
      simp [hi]
  | false =>
    cases i with
    | rst => cases h; simp
    | mclr => rw [exec_mclr hf] at h; cases h; simp
    | mapp b =>
      rw [exec_mapp hf] at h
      cases h
      rcases appendOrRaise_cases (encode (.mapp b)) [b] s with ⟨a, e⟩ | ⟨a, e⟩
      · simp only [List.length_cons, List.length_nil, Nat.zero_add] at a
        simp [e, a]
      · simp only [List.length_cons, List.length_nil, Nat.zero_add] at a
        simp [e, a]
    | kclr => rw [exec_kclr hf] at h; cases h; simp
    | kapp b =>
      rw [exec_kapp hf] at h
      cases h
      by_cases hk : s.klen.toNat < 64
      · simp [hk]
      · simp [hk, Nat.le_of_not_lt hk]
    | init => rw [exec_init hf] at h; cases h; simp
    | pad =>
      rw [exec_pad hf] at h
      cases h
      rcases padStep_cases (encode .pad) s with ⟨a, e⟩ | ⟨a, e⟩ <;> simp [e, a]
    | cblk =>
      rw [exec_cblk hf] at h
      cases h
      rcases cblkStep_cases (encode .cblk) s with ⟨a, e⟩ | ⟨a, b, e⟩ | ⟨a, b, e⟩ <;> simp [*]
    | enc =>
      rw [exec_enc hf] at h
      cases h
      rcases encStep_cases (encode .enc) s with ⟨a, e⟩ | ⟨a, e⟩ <;> simp [e, a]
    | hash =>
      rw [exec_hash hf] at h
      cases h
      by_cases hl : s.mlen.toNat + (9 + padZeros s.mlen.toNat) ≤ s.msgCap.toNat
      · simp [hashSteps_fits hl, hl]
      · simp [hashSteps_full (w := encode .hash) (Nat.lt_of_not_le hl), Nat.lt_of_not_le hl]
    | hmac => rw [exec_hmac hf] at h; cases h; simp

/-! What HMAC changes, field by field. -/

@[simp] theorem hmacState_msgCap (s : State) : (hmacState s).msgCap = s.msgCap := (rfl)
@[simp] theorem hmacState_sv (s : State) : (hmacState s).sv = false := (rfl)
@[simp] theorem hmacState_blk (s : State) : (hmacState s).blk = 0#32 := (rfl)
@[simp] theorem hmacState_dig (s : State) : (hmacState s).dig = hmacMd5 s.keyBytes s.message := (rfl)
@[simp] theorem hmacState_dv (s : State) : (hmacState s).dv = true := (rfl)
@[simp] theorem hmacState_msg (s : State) : (hmacState s).msg = s.msg := (rfl)
@[simp] theorem hmacState_mlen (s : State) : (hmacState s).mlen = s.mlen := (rfl)
@[simp] theorem hmacState_key (s : State) : (hmacState s).key = s.key := (rfl)
@[simp] theorem hmacState_klen (s : State) : (hmacState s).klen = s.klen := (rfl)
@[simp] theorem hmacState_fault (s : State) : (hmacState s).fault = s.fault := (rfl)
@[simp] theorem hmacState_cause (s : State) : (hmacState s).cause = s.cause := (rfl)
@[simp] theorem hmacState_fcmd (s : State) : (hmacState s).fcmd = s.fcmd := (rfl)
@[simp] theorem hmacState_mptr (s : State) : (hmacState s).mptr = s.mptr := (rfl)
@[simp] theorem hmacState_pending (s : State) : (hmacState s).pending = s.pending := (rfl)
@[simp] theorem hmacState_reads (s : State) : (hmacState s).reads = s.reads := (rfl)

/-! Transactions. -/

theorem cmdWrite_legal {w : Word} {i : Instr} (h : decode w = .ok i) (s : State) : cmdWrite w s = exec i s := by
  simp [cmdWrite, h]

theorem cmdWrite_illegal {w : Word} {r : Reject} (h : decode w = .error r) {s : State} (hs : s.fault = false) :
    cmdWrite w s = .next (s.raise .illegal w) := by
  simp [cmdWrite, h, whenReady, hs]

theorem cmdWrite_illegal_faulted {w : Word} {r : Reject} (h : decode w = .error r) {s : State} (hs : s.fault = true) :
    cmdWrite w s = .next s := by
  simp [cmdWrite, h, whenReady, hs]

theorem portRegOf_eq_cmd {n : Fin 64} : portRegOf n = some .cmd ↔ n = 0 := by revert n; decide

theorem portRegOf_eq_mptr {n : Fin 64} : portRegOf n = some .mptr ↔ n = 6 := by revert n; decide

theorem regWrite_cmd (v : Word) (s : State) : regWrite 0 v s = cmdWrite v s := (rfl)

theorem regWrite_mptr (v : Word) (s : State) : regWrite 6 v s = .next (s.setMptr v) := (rfl)

theorem regWrite_other {n : Fin 64} (h0 : n ≠ 0) (h6 : n ≠ 6) (v : Word) (s : State) : regWrite n v s = .next s := by
  unfold regWrite
  split
  · exact absurd (portRegOf_eq_cmd.1 ‹_›) h0
  · exact absurd (portRegOf_eq_mptr.1 ‹_›) h6
  · rfl

/-- Everything a transaction can be: a legal command written to CMD by either name, an illegal word written there, a write of
MPTR, an ignored write, a read, or the reset input. -/
theorem perform_cases (tr : Transaction) (s : State) :
    (∃ w i, (tr = .cmdWrite w ∨ tr = .regWrite 0 w) ∧ decode w = .ok i ∧ perform tr s = exec i s) ∨
    (∃ w r, (tr = .cmdWrite w ∨ tr = .regWrite 0 w) ∧ decode w = .error r ∧
      perform tr s = whenReady s (s.raise .illegal w)) ∨
    (∃ v, tr = .regWrite 6 v ∧ perform tr s = .next (s.setMptr v)) ∨
    (∃ n v, tr = .regWrite n v ∧ n ≠ 0 ∧ n ≠ 6 ∧ perform tr s = .next s) ∨
    (∃ n, tr = .regRead n ∧ perform tr s = .next (s.pushRead (regRead n s))) ∨
    (tr = .reset ∧ perform tr s = .next s.resetEngine) := by
  cases tr with
  | cmdWrite w =>
    cases hd : decode w with
    | ok i => exact .inl ⟨w, i, .inl rfl, hd, cmdWrite_legal hd s⟩
    | error r => exact .inr (.inl ⟨w, r, .inl rfl, hd, by simp [perform, cmdWrite, hd]⟩)
  | regWrite n v =>
    by_cases h0 : n = 0
    · subst h0
      cases hd : decode v with
      | ok i => exact .inl ⟨v, i, .inr rfl, hd, cmdWrite_legal hd s⟩
      | error r => exact .inr (.inl ⟨v, r, .inr rfl, hd, by simp [perform, regWrite_cmd, cmdWrite, hd]⟩)
    · by_cases h6 : n = 6
      · subst h6
        exact .inr (.inr (.inl ⟨v, rfl, regWrite_mptr v s⟩))
      · exact .inr (.inr (.inr (.inl ⟨n, v, rfl, h0, h6, regWrite_other h0 h6 v s⟩)))
  | regRead n => exact .inr (.inr (.inr (.inr (.inl ⟨n, rfl, rfl⟩))))
  | reset => exact .inr (.inr (.inr (.inr (.inr ⟨rfl, rfl⟩))))

/-! Every command and every transaction answers a next state, and none looks at the transactions still pending. -/

theorem whenReady_next (s r : State) : ∃ t, whenReady s r = .next t := by
  cases h : s.fault with
  | true => exact ⟨_, whenReady_faulted h r⟩
  | false => exact ⟨_, whenReady_ready h r⟩

theorem exec_next (i : Instr) (s : State) : ∃ t, exec i s = .next t := by
  cases i with
  | rst => exact ⟨_, exec_rst s⟩
  | mclr => exact whenReady_next _ _
  | mapp b => exact whenReady_next _ _
  | kclr => exact whenReady_next _ _
  | kapp b => exact whenReady_next _ _
  | init => exact whenReady_next _ _
  | pad => exact whenReady_next _ _
  | cblk => exact whenReady_next _ _
  | enc => exact whenReady_next _ _
  | hash => exact whenReady_next _ _
  | hmac => exact whenReady_next _ _

theorem perform_next (tr : Transaction) (s : State) : ∃ t, perform tr s = .next t := by
  rcases perform_cases tr s with ⟨w, i, -, -, p⟩ | ⟨w, r, -, -, p⟩ | ⟨v, -, p⟩ | ⟨n, v, -, -, -, p⟩ | ⟨n, -, p⟩ | ⟨-, p⟩ <;>
    rw [p]
  · exact exec_next i s
  · exact whenReady_next _ _
  · exact ⟨_, rfl⟩
  · exact ⟨_, rfl⟩
  · exact ⟨_, rfl⟩
  · exact ⟨_, rfl⟩

@[simp] theorem regRead_setPending (n : Fin 64) (s : State) (ts : List Transaction) :
    regRead n (s.setPending ts) = regRead n s := by
  unfold regRead
  split
  · rename_i r _
    cases r <;> rfl
  · rfl

/-- A command does not look at the transactions still pending. -/
theorem exec_setPending (ts : List Transaction) {i : Instr} {s t : State} (e : exec i s = .next t) :
    exec i (s.setPending ts) = .next (t.setPending ts) := by
  rcases exec_cases e with ⟨hf, hi, rfl⟩ | ⟨rfl, rfl⟩ | ⟨hf, h⟩
  · rw [exec_faulted (by simpa using hf) hi]
  · rfl
  · have hf' : (s.setPending ts).fault = false := by simpa using hf
    rcases h with ⟨rfl, rfl⟩ | ⟨b, rfl, h, rfl⟩ | ⟨b, rfl, h, rfl⟩ | ⟨rfl, rfl⟩ | ⟨b, rfl, h, rfl⟩ | ⟨b, rfl, h, rfl⟩ |
      ⟨rfl, rfl⟩ | ⟨rfl, h, rfl⟩ | ⟨rfl, h, rfl⟩ | ⟨rfl, h, rfl⟩ | ⟨rfl, h, h', rfl⟩ | ⟨rfl, h, h', rfl⟩ | ⟨rfl, h, rfl⟩ |
      ⟨rfl, h, rfl⟩ | ⟨rfl, h, rfl⟩ | ⟨rfl, h, rfl⟩ | ⟨rfl, rfl⟩
    · rw [exec_mclr hf']; rfl
    · rw [exec_mapp hf', appendOrRaise_fits (by simpa using h)]; rfl
    · rw [exec_mapp hf', appendOrRaise_full (by simpa using h)]; rfl
    · rw [exec_kclr hf']; rfl
    · rw [exec_kapp hf', if_pos (by simpa using h)]; rfl
    · rw [exec_kapp hf', if_neg (by simpa using h)]
    · rw [exec_init hf']; rfl
    · rw [exec_pad hf', padStep_fits (by simpa using h)]; rfl
    · rw [exec_pad hf', padStep_full (by simpa using h)]; rfl
    · rw [exec_cblk hf', cblkStep_nostate (by simpa using h)]; rfl
    · rw [exec_cblk hf', cblkStep_noblock (by simpa using h) (by simpa using h')]; rfl
    · rw [exec_cblk hf', cblkStep_block (by simpa using h) (by simpa using h'),
        show (s.setPending ts).st = s.st from rfl, show (s.setPending ts).block = s.block from rfl]
      generalize md5Compress s.st s.block = q
      rfl
    · rw [exec_enc hf', encStep_nostate (by simpa using h)]; rfl
    · rw [exec_enc hf', encStep_state (by simpa using h)]; rfl
    · rw [exec_hash hf', hashSteps_fits (by simpa using h)]; rfl
    · rw [exec_hash hf', hashSteps_full (by simpa using h)]; rfl
    · rw [exec_hmac hf']; rfl

/-- A transaction does not look at the transactions still pending. -/
theorem perform_setPending (ts : List Transaction) {tr : Transaction} {s t : State} (e : perform tr s = .next t) :
    perform tr (s.setPending ts) = .next (t.setPending ts) := by
  rcases perform_cases tr s with ⟨w, i, h1, h2, p⟩ | ⟨w, r, h1, h2, p⟩ | ⟨v, rfl, p⟩ | ⟨n, v, rfl, h0, h6, p⟩ |
    ⟨n, rfl, p⟩ | ⟨rfl, p⟩ <;> rw [p] at e
  · have := exec_setPending ts e
    rcases h1 with rfl | rfl <;> rw [← this] <;> exact cmdWrite_legal h2 _
  · have : perform tr (s.setPending ts) = whenReady (s.setPending ts) ((s.setPending ts).raise .illegal w) := by
      rcases h1 with rfl | rfl <;> simp [perform, regWrite_cmd, cmdWrite, h2]
    rw [this]
    rcases whenReady_cases e with ⟨h, rfl⟩ | ⟨h, rfl⟩
    · rw [whenReady_faulted (by simpa using h)]
    · rw [whenReady_ready (by simpa using h)]; rfl
  · cases e; rfl
  · cases e; exact regWrite_other h0 h6 _ _
  · cases e
    rw [perform, regRead_setPending]
    rfl
  · cases e; rfl

/-! Runs. -/

@[simp] theorem runTransactions_nil (s : State) : runTransactions [] s = .next s := (rfl)

theorem runTransactions_cons {tr : Transaction} {ts : List Transaction} {s t : State} (h : perform tr s = .next t) :
    runTransactions (tr :: ts) s = runTransactions ts t := by
  simp [runTransactions, h]

theorem runTransactions_append {ts us : List Transaction} {s t : State} (h : runTransactions ts s = .next t) :
    runTransactions (ts ++ us) s = runTransactions us t := by
  induction ts generalizing s with
  | nil => cases h; rfl
  | cons tr ts ih =>
    simp only [List.cons_append, runTransactions] at h ⊢
    cases hp : perform tr s with
    | next u => simp only [hp] at h ⊢; exact ih h
    | fault r => simp [hp] at h
    | refused r => simp [hp] at h

/-! The step. -/

theorem step_idle {s : State} (h : s.pending = []) : step s = .next s := by simp [step, h]

theorem step_pending {s : State} {tr : Transaction} {rest : List Transaction} (h : s.pending = tr :: rest) :
    step s = perform tr (s.setPending rest) := by
  simp [step, h]

/-- One step of a run through the host's interface. -/
theorem core_run_succ (n : Nat) {s t : State} (h : step s = .next t) :
    Host.Core.run Sys2Proof.core (n + 1) s = Host.Core.run Sys2Proof.core n t := by
  have general (M : Host.Core) (x y : M.State) (hm : M.step x = .next y) : M.run (n + 1) x = M.run n y := by
    simp [Host.Core.run, hm]
  exact general Sys2Proof.core s t h

end Sys2Proof.Machine
end

