-- ==== Sys2Proof/Laws/PerInstr.lean ====
section
/-! SUPPORT. A fact about every command as syntax: the fields of its word (spec/30_encoding.md rules R90, R91, R93). -/

namespace Sys2Proof.Laws.EncodedFields

/-- The reserved field of the word is zero, its opcode field is the command's opcode, of the command's format, and its
immediate field is the command's immediate, zero in format N. -/
def Statement (i : Instr) : Prop :=
  rsvField (encode i) = 0#16 ∧ opField (encode i) = opcode i ∧ imm8Field (encode i) = immediate i ∧
    formatOfOpcode (opcode i).toNat = some i.format ∧ (i.format = .N → immediate i = 0#8)

theorem rst : Statement .rst := by unfold Statement; decide

theorem mclr : Statement .mclr := by unfold Statement; decide

theorem mapp (imm8 : Byte) : Statement (.mapp imm8) := by revert imm8; unfold Statement; decide

theorem kclr : Statement .kclr := by unfold Statement; decide

theorem kapp (imm8 : Byte) : Statement (.kapp imm8) := by revert imm8; unfold Statement; decide

theorem init : Statement .init := by unfold Statement; decide

theorem pad : Statement .pad := by unfold Statement; decide

theorem cblk : Statement .cblk := by unfold Statement; decide

theorem enc : Statement .enc := by unfold Statement; decide

theorem hash : Statement .hash := by unfold Statement; decide

theorem hmac : Statement .hmac := by unfold Statement; decide

end Sys2Proof.Laws.EncodedFields
end

