-- ==== Sys2Proof/Tests/Slice0.lean ====
section
/-! SUPPORT. The model's own tests.  Every expected value is a worked value of spec/95_test_vectors.md or of the rule's own
example or corner case, named beside the test; and one witness for every hypothesis an obligation has. -/

namespace Sys2Proof.Tests

open Sys2Proof Sys2Proof.Machine

-- One test after the other: in parallel each takes a thread, with a stack of its own.
set_option Elab.async false

/-! Helpers. -/

/-- A READY engine of a capacity, with a message and a key loaded. -/
def loaded (cap : Word) (m k : List Byte) : State :=
  { State.resetWith cap with
    msg := Memory.writeBytes [] 0 m, mlen := BitVec.ofNat 32 m.length,
    key := Memory.writeBytes [] 0 k, klen := BitVec.ofNat 7 k.length }

/-- `n` copies of a byte. -/
def fill (b : Byte) (n : Nat) : List Byte := List.replicate n b

/-- The bytes of "abc" and of "key". -/
def abc : List Byte := [0x61#8, 0x62#8, 0x63#8]
def keyText : List Byte := [0x6b#8, 0x65#8, 0x79#8]

/-- The state of an outcome. -/
def after : Result → State
  | .next s => s
  | .fault _ => State.reset
  | .refused _ => State.reset

/-- The state after a run. -/
def run (ts : List Transaction) (s : State) : State := after (runTransactions ts s)

/-- The state one step after a command word is placed. -/
def stepOf (w : Nat) (s : State) : State := after (step (s.withFetchWord 32 w))

/-- What a register reads as. -/
def rd (n : Fin 64) (s : State) : Word := regRead n s

/-- An engine in mode FAULTED: an illegal word was written after reset (section 3.8, first row). -/
def faulted : State := after (perform (.cmdWrite 0x00000000#32) State.reset)

theorem exec_after (i : Instr) (s : State) : exec i s = .next (after (exec i s)) := by
  obtain ⟨t, h⟩ := exec_next i s
  rw [h, after]

theorem perform_after (tr : Transaction) (s : State) : perform tr s = .next (after (perform tr s)) := by
  obtain ⟨t, h⟩ := perform_next tr s
  rw [h, after]

/-! Well-formedness: each check refuses a term that breaks it (R90, R91, R94, R98, R99). -/

theorem test_legalWord_refuses_reserved_bit : legalWord 0x00010030#32 = false := by decide
theorem test_legalWord_refuses_unknown_opcode : legalWord 0x00000024#32 = false := by decide
theorem test_legalWord_refuses_immediate_in_format_n : legalWord 0x00000120#32 = false := by decide
theorem test_legalWord_accepts_immediate_in_format_b : legalWord 0x0000ff11#32 = true := by decide
theorem test_formatOfOpcode_refuses_zero : formatOfOpcode 0x00 = none := by decide
theorem test_asciiText_refuses_high_character : asciiText [Char.ofNat 0xe9] = false := by decide
theorem test_regArg_refuses_64 : RegArg.wellFormed (.number 64) = false := by decide
theorem test_line_refuses_command_without_its_operand : AsmLine.wellFormed (.command (.mapp 0x61#8)) = false := by decide
theorem test_line_refuses_byte_256 :
    AsmLine.wellFormed (.mapp 256) = false ∧ AsmLine.wellFormed (.kapp 256) = false ∧
    AsmLine.wellFormed (.mfill 256 1) = false ∧ AsmLine.wellFormed (.kfill 256 1) = false ∧
    AsmLine.wellFormed (.mbytes [256]) = false ∧ AsmLine.wellFormed (.kbytes [256]) = false := by decide
theorem test_line_refuses_wide_word :
    AsmLine.wellFormed (.cmd (2 ^ 32)) = false ∧ AsmLine.wellFormed (.wr (.name .mptr) (2 ^ 32)) = false := by decide
theorem test_line_refuses_register_64 :
    AsmLine.wellFormed (.rd (.number 64)) = false ∧ AsmLine.wellFormed (.wr (.number 64) 0) = false := by decide
theorem test_line_refuses_text_outside_ascii :
    AsmLine.wellFormed (.mstr [Char.ofNat 0xe9]) = false ∧ AsmLine.wellFormed (.kstr [Char.ofNat 0xe9]) = false ∧
    AsmLine.wellFormed (.msg [Char.ofNat 0xe9]) = false ∧ AsmLine.wellFormed (.key [Char.ofNat 0xe9]) = false ∧
    AsmLine.wellFormed (.md5 [Char.ofNat 0xe9]) = false := by decide
theorem test_line_refuses_no_bytes :
    AsmLine.wellFormed (.mbytes []) = false ∧ AsmLine.wellFormed (.kbytes []) = false := by decide

/-! Decoding: every command's word, bit by bit: sixteen reserved bits, eight of `imm8`, eight of `op` (R90, R93). -/

theorem test_decode_rst : decode 0b00000000000000000000000000000001#32 = .ok .rst := by decide
theorem test_decode_mclr : decode 0b00000000000000000000000000010000#32 = .ok .mclr := by decide
theorem test_decode_mapp : decode 0b00000000000000000110000100010001#32 = .ok (.mapp 0x61#8) := by decide
theorem test_decode_kclr : decode 0b00000000000000000000000000011000#32 = .ok .kclr := by decide
theorem test_decode_kapp : decode 0b00000000000000000110101100011001#32 = .ok (.kapp 0x6b#8) := by decide
theorem test_decode_init : decode 0b00000000000000000000000000100000#32 = .ok .init := by decide
theorem test_decode_pad : decode 0b00000000000000000000000000100001#32 = .ok .pad := by decide
theorem test_decode_cblk : decode 0b00000000000000000000000000100010#32 = .ok .cblk := by decide
theorem test_decode_enc : decode 0b00000000000000000000000000100011#32 = .ok .enc := by decide
theorem test_decode_hash : decode 0b00000000000000000000000000110000#32 = .ok .hash := by decide
theorem test_decode_hmac : decode 0b00000000000000000000000000110001#32 = .ok .hmac := by decide

/-- Illegal words of section 3.6, each rejected for its own reason. -/
theorem test_decode_illegal :
    decode 0x00000000#32 = .error .unknownOpcode ∧ decode 0x00000002#32 = .error .unknownOpcode ∧
    decode 0x00000012#32 = .error .unknownOpcode ∧ decode 0x00000032#32 = .error .unknownOpcode ∧
    decode 0x000000ff#32 = .error .unknownOpcode ∧ decode 0x80000001#32 = .error .reservedBits ∧
    decode 0xffffffff#32 = .error .reservedBits ∧ decode 0x11000000#32 = .error .reservedBits := by decide

theorem test_decodeTableWord :
    decodeTableWord 32 0x00006111 = some (.mapp 0x61#8) ∧ decodeTableWord 32 0x00000120 = none := by decide

/-! One step of each command (sections 3.2 to 3.8 and the rules' own examples). -/

theorem test_rst_recovers : (stepOf 0x01 faulted).fault = false ∧ rd 2 (stepOf 0x01 faulted) = 0#32 := by decide
theorem test_rst_malformed_is_ignored : stepOf 0x101 faulted = faulted := by decide
theorem test_mclr : (stepOf 0x10 (loaded 64 (fill 0x61#8 64) [])).mlen = 0#32 := by decide
theorem test_mapp_first_byte : (stepOf 0x6111 State.reset).message = [0x61#8] := by decide
theorem test_mapp_full_store :
    rd 1 (stepOf 0x6211 (loaded 64 (fill 0x61#8 64) [])) = 0x14#32 ∧
    rd 2 (stepOf 0x6211 (loaded 64 (fill 0x61#8 64) [])) = 0x6211#32 := by decide
theorem test_kclr : (stepOf 0x18 (loaded 64 [] keyText)).klen = 0#7 := by decide
theorem test_kapp_first_byte : (stepOf 0x6b19 State.reset).keyBytes = [0x6b#8] := by decide
theorem test_kapp_65th_byte_is_dropped :
    stepOf 0x5819 (loaded 64 [] (fill 0x6b#8 64)) = loaded 64 [] (fill 0x6b#8 64) := by decide
theorem test_init : rd 1 (stepOf 0x20 State.reset) = 1#32 ∧ rd 9 (stepOf 0x20 State.reset) = 0xefcdab89#32 := by decide
theorem test_pad_abc :
    (stepOf 0x21 (loaded 64 abc [])).message =
      abc ++ [0x80#8] ++ fill 0x00#8 52 ++ [0x18#8] ++ fill 0x00#8 7 := by decide
theorem test_pad_56_bytes :
    rd 3 (stepOf 0x21 (loaded 128 (fill 0x61#8 56) [])) = 128#32 ∧
    Memory.read (stepOf 0x21 (loaded 128 (fill 0x61#8 56) [])).msg 121 = 0x01#8 := by decide

/-- The padded "abc" block compressed from the initial constants (R150, example). -/
theorem test_cblk_abc :
    (stepOf 0x22 (stepOf 0x20 (stepOf 0x21 (loaded 64 abc [])))).st =
      ⟨0x98500190#32, 0xb04fd23c#32, 0x7d3f96d6#32, 0x727fe128#32⟩ := by decide +kernel
theorem test_cblk_without_state : rd 1 (stepOf 0x22 State.reset) = 0x34#32 := by decide

/-- The encoding of the initial constants (R141, R157). -/
theorem test_enc_after_init :
    (stepOf 0x23 (stepOf 0x20 State.reset)).dig.toList =
      [0x01#8, 0x23#8, 0x45#8, 0x67#8, 0x89#8, 0xab#8, 0xcd#8, 0xef#8,
       0xfe#8, 0xdc#8, 0xba#8, 0x98#8, 0x76#8, 0x54#8, 0x32#8, 0x10#8] := by decide
theorem test_enc_without_state : rd 2 (stepOf 0x23 State.reset) = 0x23#32 := by decide

/-- Program P1 (section 4). -/
theorem test_hash_abc :
    rd 12 (stepOf 0x30 (loaded 4096 abc [])) = 0x98500190#32 ∧
    rd 3 (stepOf 0x30 (loaded 4096 abc [])) = 64#32 := by decide +kernel

/-- Program P6 (section 4): the padding does not fit, and the INIT sub-step has taken effect. -/
theorem test_hash_alloc :
    rd 1 (stepOf 0x30 (loaded 64 (fill 0x61#8 56) [])) = 0x15#32 ∧
    rd 8 (stepOf 0x30 (loaded 64 (fill 0x61#8 56) [])) = 0x67452301#32 := by decide

/-- Program P3 (section 4). -/
theorem test_hmac_key_abc :
    rd 12 (stepOf 0x31 (loaded 4096 abc keyText)) = 0x0698fed2#32 ∧
    rd 3 (stepOf 0x31 (loaded 4096 abc keyText)) = 3#32 := by decide +kernel

/-- Program P6 (section 4): HMAC needs no room for padding. -/
theorem test_hmac_full_store :
    (stepOf 0x31 (loaded 64 (fill 0x61#8 56) [])).dig.toList =
      [0x5a#8, 0x11#8, 0xb7#8, 0xdf#8, 0xda#8, 0xc0#8, 0x88#8, 0x1f#8,
       0xa4#8, 0x06#8, 0x14#8, 0x2d#8, 0x23#8, 0x77#8, 0xb4#8, 0xd8#8] := by decide +kernel

/-! Registers and runs (sections 3.7 and 3.8). -/

theorem test_mbyte_at_the_edge :
    rd 7 ((loaded 64 abc []).setMptr 2#32) = 0x63#32 ∧ rd 7 ((loaded 64 abc []).setMptr 3#32) = 0#32 := by decide
theorem test_noblock_keeps_the_state :
    rd 1 (run [.cmdWrite 0x20#32, .cmdWrite 0x22#32] State.reset) = 0x45#32 := by decide
theorem test_first_fault_is_kept :
    rd 1 (run [.cmdWrite 0x22#32, .cmdWrite 0x20#32, .cmdWrite 0x6111#32, .cmdWrite 0#32] State.reset) = 0x34#32 ∧
    rd 2 (run [.cmdWrite 0x22#32, .cmdWrite 0x20#32, .cmdWrite 0x6111#32, .cmdWrite 0#32] State.reset) = 0x22#32 := by decide
theorem test_mptr_writable_when_faulted : rd 6 (run [.regWrite 6 7#32] faulted) = 7#32 := by decide

/-! The assembler (R98, R99). -/

theorem test_parse_quoted_hash : parseLine ['M', 'A', 'P', 'P', ' ', '\'', '#', '\''] = some [.mapp 0x23] := by decide
theorem test_parse_prediction :
    parseLine ['R', 'D', ' ', 'S', 'T', 'A', ' ', '=', '>', ' ', '0', ' ', '#', 'x'] = some [.rd (.name .sta)] := by decide
theorem test_parse_hexadecimal : parseLine ['C', 'M', 'D', ' ', '0', 'x', '1', '2', '0'] = some [.cmd 0x120] := by decide
theorem test_parse_quoted_comma :
    parseLine ['M', 'B', 'Y', 'T', 'E', 'S', ' ', '\'', ',', '\'', ',', ' ', '1'] = some [.mbytes [0x2c, 1]] ∧
    parseLine ['K', 'F', 'I', 'L', 'L', ' ', '\'', ',', '\'', ',', ' ', '3'] = some [.kfill 0x2c 3] := by decide
theorem test_parse_unknown_word : parseLine ['N', 'O', 'P'] = none := by decide

/-! Witnesses: concrete states and operands that meet the hypotheses of the obligations, clause by clause, at the boundary
values of their ranges.  A witness is named after its obligation; where one serves several, they are these.
`witness_inv_reset`, `witness_inv_faulted`: RegisterReadsFollowTheMap, StatusFieldsAreWhereTheTableSays,
FaultsAreRaisedExactlyWhenTabled, NoDigestAfterAFault, EveryStepKeepsTheInvariant, UnspecifiedStorageIsUnobservable.
`witness_illegal_words`: LegalWordsAreExactlyThese521, OpcodeTableRowsDoNotOverlap, IllegalWordsRaiseIllegal,
CommandWriteDispatches, FaultsAreRaisedExactlyWhenTabled.
`witness_reset_inputs`: RstAndResetGiveTheResetState, ResetRegistersReadZero, OnlyResetLeavesFaultedMode.
`witness_ready`, `witness_next_states`: MclrEmptiesTheMessageStore, KclrEmptiesTheKeyStore, InitLoadsTheInitialConstants,
HmacDigestsTheMessageUnderTheKey.  `witness_padding_edge`: PadAppendsThePaddingTail, HashDigestsTheMessage,
HashEqualsItsPrimitives.  `witness_enc`: EncEncodesAndConsumesTheState, DigestRegistersReadTheEncodedWords.
`witness_bit_positions`: LittleEndianCodecsAreInverse, RotationLosesNoBits, NonlinearFunctionsFollowTheTruthTable,
WordIndexPermutesTheBlock, ShiftAmountsFollowThePatterns.  `witness_masks_and_keys`: MasksAreTheKeyXorTheConstants,
LongKeysAreTruncated, TrailingZeroKeyBytesDoNotMatter.  `witness_capacities`: ResetMeetsTheInvariant,
ReachableStatesMeetTheBounds. -/

/-- Named states: a store one byte short of full, a full one, messages at the padding boundary, a valid state over a whole
block and over one byte less, a key one byte short of full and a full one. -/
def almostFull : State := loaded 64 (fill 0x61#8 63) []
def full : State := loaded 64 (fill 0x61#8 64) []
def padsExactly : State := loaded 64 (fill 0x61#8 55) []
def padsNoMore : State := loaded 64 (fill 0x61#8 56) []
def wholeBlock : State := full.startState
def shortBlock : State := almostFull.startState
def key63 : State := loaded 64 [] (fill 0x6b#8 63)
def key64 : State := loaded 64 [] (fill 0x6b#8 64)

theorem witness_inv_reset : State.reset.Inv ∧ State.reset.fault = false :=
  ⟨by constructor <;> decide, by decide⟩

theorem witness_inv_faulted : faulted.Inv ∧ faulted.fault = true :=
  ⟨by constructor <;> decide, by decide⟩

theorem witness_DecodeAndEncodeAgree :
    decode 0x0000ff19#32 = .ok (.kapp 0xff#8) ∧ ∀ i, encode i ≠ 0x00000000#32 :=
  ⟨by decide, fun i => by cases i <;> first | decide | (rename_i b; revert b; decide)⟩

theorem witness_illegal_words :
    State.reset.fault = false ∧ (∀ i, decode 0x00000000#32 ≠ .ok i) ∧
    (0x00010030#32 : Word).extractLsb' 16 16 ≠ 0#16 ∧ formatOfOpcode ((0x00000024#32 : Word).extractLsb' 0 8).toNat = none ∧
    formatOfOpcode ((0x00000120#32 : Word).extractLsb' 0 8).toNat = some .N ∧
    (0x00000120#32 : Word).extractLsb' 8 8 ≠ 0#8 ∧
    decode 0x00000000#32 = .error .unknownOpcode := by
  refine ⟨by decide, fun i h => ?_, by decide, by decide, by decide, by decide, by decide⟩
  have : decode 0x00000000#32 = .error .unknownOpcode := by decide
  rw [this] at h
  cases h

theorem witness_StepPerformsTheNextTransaction :
    (State.reset.withFetchWord 32 0x20).pending = [.cmdWrite 0x00000020#32] ∧ decode 0x00000020#32 = .ok .init ∧
    State.reset.pending = [] := by decide

theorem witness_CommandWriteDispatches :
    faulted.fault = true ∧ decode 0x00000001#32 = .ok .rst ∧ decode 0x00000020#32 ≠ .ok .rst ∧
    decode 0x00000101#32 ≠ .ok .rst ∧ State.reset.fault = false ∧ decode 0x0000ff11#32 = .ok (.mapp 0xff#8) := by decide

theorem witness_RegisterReadsFollowTheMap :
    (17 : Fin 64).val = 17 ∧ 17 ≤ (63 : Fin 64).val ∧
    (State.reset.setPending [.regRead 63]).pending = [.regRead 63] := by decide

theorem witness_RegisterWritesReachOnlyCmdAndMptr :
    (5 : Fin 64) ≠ 0 ∧ (5 : Fin 64) ≠ 6 ∧ (7 : Fin 64) ≠ 0 ∧ (7 : Fin 64) ≠ 6 ∧ (63 : Fin 64) ≠ 0 ∧ (63 : Fin 64) ≠ 6 := by
  decide

theorem witness_BusAccessesAreBridgedOrRefused :
    (252 : Nat) = 4 * (63 : Fin 64).val ∧ (2 : Nat) ≠ 4 ∧ (253 : Nat) % 4 ≠ 0 ∧ (256 : Nat) ≤ 256 := by decide

theorem witness_CapacityIsConstant : step State.reset = .next State.reset := step_idle (by decide)

theorem witness_reset_inputs :
    exec .rst faulted = .next (after (exec .rst faulted)) ∧ perform .reset faulted = .next (after (perform .reset faulted)) ∧
    (after (perform .reset faulted)).fault = false :=
  ⟨exec_after _ _, perform_after _ _, by decide⟩

theorem witness_FaultedModeKeepsTheFirstFault :
    faulted.fault = true ∧ (0x00000101#32 : Word) ≠ 0x00000001#32 ∧ ¬ Transaction.resets (.regWrite 6 7#32) ∧
    perform (.regWrite 6 7#32) faulted = .next (faulted.setMptr 7#32) :=
  ⟨by decide, by decide, by simp [Transaction.resets, Transaction.writesCommand], rfl⟩

theorem witness_FaultEntryIsPrecise :
    full.fault = false ∧ perform (.cmdWrite 0x6211#32) full = .next (after (perform (.cmdWrite 0x6211#32) full)) ∧
    (after (perform (.cmdWrite 0x6211#32) full)).fault = true ∧ padsNoMore.fault = false ∧
    perform (.cmdWrite 0x30#32) padsNoMore = .next (after (perform (.cmdWrite 0x30#32) padsNoMore)) ∧
    (after (perform (.cmdWrite 0x30#32) padsNoMore)).fault = true :=
  ⟨by decide, perform_after _ _, by decide, by decide, perform_after _ _, by decide⟩

/-- For each command that can fault: a state where it does and one where it does not, at the edge of the condition. -/
theorem witness_FaultsAreRaisedExactlyWhenTabled :
    (after (exec (.mapp 0x62#8) full)).fault = true ∧ (after (exec (.mapp 0x62#8) almostFull)).fault = false ∧
    (after (exec .pad padsNoMore)).fault = true ∧ (after (exec .pad padsExactly)).fault = false ∧
    (after (exec .hash padsNoMore)).fault = true ∧ (after (exec .hash padsExactly)).fault = false ∧
    (after (exec .cblk full)).fault = true ∧ (after (exec .cblk shortBlock)).fault = true ∧
    (after (exec .cblk wholeBlock)).fault = false ∧
    (after (exec .enc full)).fault = true ∧ (after (exec .enc wholeBlock)).fault = false := by decide +kernel

theorem witness_NoDigestAfterAFault :
    (∀ tr ∈ [Transaction.cmdWrite 0x20#32, .regWrite 6 7#32], ¬ Transaction.resets tr) ∧
    runTransactions [.cmdWrite 0x20#32, .regWrite 6 7#32] faulted = .next (faulted.setMptr 7#32) := by
  refine ⟨?_, rfl⟩
  simp [Transaction.resets, Transaction.writesCommand]

theorem witness_ready : State.reset.fault = false ∧ full.fault = false ∧ key63.fault = false := by decide

theorem witness_MappAppendsOneByteOrRaisesAlloc :
    almostFull.fault = false ∧ Memory.wf almostFull.msg ∧ almostFull.mlen.toNat + 1 = almostFull.msgCap.toNat ∧
    full.fault = false ∧ Memory.wf full.msg ∧ full.mlen = full.msgCap := by decide +kernel

theorem witness_KappAppendsUpTo64Bytes :
    key63.fault = false ∧ Memory.wf key63.key ∧ key63.klen.toNat = 63 ∧ key64.fault = false ∧ Memory.wf key64.key ∧
    key64.klen.toNat = 64 ∧ State.reset.klen = 0#7 ∧ Memory.wf State.reset.key := by decide +kernel

theorem witness_MessageBytesLoadInOrder :
    almostFull.fault = false ∧ Memory.wf almostFull.msg ∧
    almostFull.mlen.toNat + [0x62#8].length = almostFull.msgCap.toNat := by decide +kernel

theorem witness_next_states :
    exec .init State.reset = .next (after (exec .init State.reset)) ∧
    exec .kclr key64 = .next (after (exec .kclr key64)) :=
  ⟨exec_after _ _, exec_after _ _⟩

/-- 55 bytes pad to exactly 64; 56 bytes pad to 128, which does not fit (PAD and HASH). -/
theorem witness_padding_edge :
    padsExactly.fault = false ∧ Memory.wf padsExactly.msg ∧
    padsExactly.mlen.toNat + (padTail padsExactly.mlen.toNat).length = padsExactly.msgCap.toNat ∧
    padsExactly.mlen.toNat + (9 + padZeros padsExactly.mlen.toNat) = padsExactly.msgCap.toNat ∧
    padsNoMore.fault = false ∧ Memory.wf padsNoMore.msg ∧
    padsNoMore.msgCap.toNat < padsNoMore.mlen.toNat + (padTail padsNoMore.mlen.toNat).length ∧
    padsNoMore.msgCap.toNat < padsNoMore.mlen.toNat + (9 + padZeros padsNoMore.mlen.toNat) := by decide +kernel

theorem witness_CblkCompressesTheBlockAtTheCursor :
    full.fault = false ∧ full.sv = false ∧ shortBlock.fault = false ∧ shortBlock.sv = true ∧
    shortBlock.mlen.toNat + 1 = 64 * (shortBlock.blk.toNat + 1) ∧ wholeBlock.fault = false ∧ wholeBlock.sv = true ∧
    64 * (wholeBlock.blk.toNat + 1) = wholeBlock.mlen.toNat := by decide

theorem witness_enc :
    wholeBlock.fault = false ∧ wholeBlock.sv = true ∧ full.sv = false ∧
    exec .enc wholeBlock = .next (after (exec .enc wholeBlock)) ∧ (after (exec .enc wholeBlock)).dv = true :=
  ⟨by decide, by decide, by decide, exec_after _ _, by decide⟩

theorem witness_bit_positions :
    (7 : Nat) < 8 ∧ (31 : Nat) < 32 ∧ (1 : Nat) + 31 = 32 ∧ (15 : Fin 64).val / 16 = 0 ∧ (16 : Fin 64).val / 16 = 1 ∧
    (31 : Fin 64).val / 16 = 1 ∧ (47 : Fin 64).val / 16 = 2 ∧ (48 : Fin 64).val / 16 = 3 ∧ (63 : Fin 64).val / 16 = 3 := by
  decide

theorem witness_WordIndexPermutesTheBlock : wordIndex (Fin.ofNat 64 (16 * 1 + 3)) = 0 := by decide

theorem witness_WorkedStepsComeOut :
    ∃ w : Vector Word 16, w = Vector.ofFn (fun j => BitVec.ofNat 32 (0x01010101 * j.val)) := ⟨_, rfl⟩

theorem witness_PaddingTailProperties :
    55 % 64 ≤ 55 ∧ 56 ≤ 56 % 64 ∧ 1 ≤ 1 ∧ 63 < 1 + padZeros 56 := by decide

theorem witness_masks_and_keys :
    (63 : Nat) < 64 ∧ 63 < (fill 0x6b#8 64).length ∧ (fill 0x6b#8 63).length ≤ 63 ∧ 64 < (fill 0x6b#8 65).length ∧
    (fill 0x6b#8 63).length + 1 ≤ 64 := by decide

theorem witness_LongKeysAreTruncated :
    State.reset.fault = false ∧ Memory.wf State.reset.key ∧ State.reset.klen = 0#7 := by decide

theorem witness_HmacByPrimitives :
    (loaded 128 (fill 0x61#8 55) keyText).fault = false ∧ Memory.wf (loaded 128 (fill 0x61#8 55) keyText).msg ∧
    55 + 64 + (9 + padZeros (55 + 64)) = (loaded 128 (fill 0x61#8 55) keyText).msgCap.toNat ∧
    128 ≤ (loaded 128 (fill 0x61#8 55) keyText).msgCap.toNat ∧
    (loaded 128 (fill 0x61#8 55) keyText).mlen.toNat = 55 := by decide +kernel

theorem witness_SecondHashDigestsThePaddedStore :
    (loaded 128 (fill 0x61#8 55) []).fault = false ∧ Memory.wf (loaded 128 (fill 0x61#8 55) []).msg ∧
    (after (exec .hash (loaded 128 (fill 0x61#8 55) []))).fault = false ∧
    (after (exec .hash (loaded 128 (fill 0x61#8 55) []))).mlen.toNat = 64 ∧ 64 + (9 + padZeros 64) = 128 := by
  decide +kernel

theorem witness_StateIsConsumed :
    exec .enc wholeBlock = .next (after (exec .enc wholeBlock)) ∧ (after (exec .enc wholeBlock)).fault = false ∧
    exec .hash padsExactly = .next (after (exec .hash padsExactly)) ∧ (after (exec .hash padsExactly)).fault = false ∧
    exec .hmac full = .next (after (exec .hmac full)) ∧ full.fault = false :=
  ⟨exec_after _ _, by decide, exec_after _ _, by decide +kernel, exec_after _ _, by decide⟩

theorem witness_capacities : Config.LegalCapacity 64#32 ∧ Config.LegalCapacity 0xffffffff#32 := by decide

theorem witness_EveryStepKeepsTheInvariant :
    step State.reset = .next State.reset ∧
    step (State.reset.withFetchWord 32 0x20) = .next (after (step (State.reset.withFetchWord 32 0x20))) := by
  refine ⟨step_idle (by decide), ?_⟩
  rw [step_pending (tr := .cmdWrite 0x00000020#32) (rest := []) (by decide)]
  exact perform_after _ _

theorem witness_ReachableStatesMeetTheBounds :
    runTransactions [.regWrite 6 7#32] (State.resetWith 64#32) = .next ((State.resetWith 64#32).setMptr 7#32) ∧
    exec .cblk wholeBlock = .next (after (exec .cblk wholeBlock)) ∧ (after (exec .cblk wholeBlock)).fault = false :=
  ⟨rfl, exec_after _ _, by decide +kernel⟩

/-- Commands that run through in mode READY, one of each kind of row, and a register write other than CMD. -/
theorem witness_TheStateIsTouchedOnlyAsTabled :
    (after (exec .init full)).fault = false ∧ (after (exec .cblk wholeBlock)).fault = false ∧
    (after (exec .enc wholeBlock)).fault = false ∧ (after (exec .hash padsExactly)).fault = false ∧
    (after (exec .hmac full)).fault = false ∧ (after (exec .rst full)).fault = false ∧
    (after (exec .pad padsExactly)).fault = false ∧ (after (exec .mclr full)).fault = false ∧
    (after (exec (.mapp 0x62#8) almostFull)).fault = false ∧ (after (exec .kclr key64)).fault = false ∧
    (after (exec (.kapp 0x6b#8) key63)).fault = false ∧ (6 : Fin 64) ≠ 0 := by decide +kernel

theorem witness_TheMessageStoreOnlyGrows :
    (after (perform (.cmdWrite 0x10#32) full)).mlen.toNat < full.mlen.toNat ∧ 63 < full.mlen.toNat ∧
    Memory.read (after (perform .reset full)).msg 63 ≠ Memory.read full.msg 63 := by decide

/-- A transaction that sets and one that clears each flag. -/
theorem witness_FlagsChangeOnlyAsTabled :
    full.sv = false ∧ (after (perform (.cmdWrite 0x20#32) full)).sv = true ∧ wholeBlock.sv = true ∧
    (after (perform (.cmdWrite 0x23#32) wholeBlock)).sv = false ∧ wholeBlock.dv = false ∧
    (after (perform (.cmdWrite 0x23#32) wholeBlock)).dv = true ∧
    (after (perform (.cmdWrite 0x23#32) (after (perform (.cmdWrite 0x23#32) wholeBlock)))).dv = false ∧
    faulted.fault = true ∧ (after (perform (.cmdWrite 0x01#32) faulted)).fault = false := by decide

theorem witness_KeyBytesReachTheHostOnlyThroughHmac :
    ¬ Transaction.writesCommand (.cmdWrite 0x30#32) 0x00000031#32 ∧
    perform (.cmdWrite 0x30#32) full = .next (after (perform (.cmdWrite 0x30#32) full)) := by
  refine ⟨?_, perform_after _ _⟩
  simp [Transaction.writesCommand]

/-- Two different states the host cannot tell apart: they differ in the storage of A and of a digest byte. -/
theorem witness_UnspecifiedStorageIsUnobservable :
    State.SameToHost State.reset { State.reset with
      st := ⟨0x1#32, 0x2#32, 0x3#32, 0x4#32⟩, dig := Vector.replicate 16 0xff#8, msg := [(5, 0x7a#8)] } ∧
    State.reset ≠ { State.reset with
      st := ⟨0x1#32, 0x2#32, 0x3#32, 0x4#32⟩, dig := Vector.replicate 16 0xff#8, msg := [(5, 0x7a#8)] } ∧
    ({ State.reset with
      st := ⟨0x1#32, 0x2#32, 0x3#32, 0x4#32⟩, dig := Vector.replicate 16 0xff#8, msg := [(5, 0x7a#8)] } : State).Inv ∧
    step State.reset = .next State.reset := by
  refine ⟨?_, by decide, ?_, step_idle (by decide)⟩ <;> constructor <;> decide

end Sys2Proof.Tests
end

section
/-! PROOFS: rotation and the little-endian codecs (spec/00_scope.md rules R10, R11). -/

namespace Sys2Proof.Machine

/-- On the domain of R10 the model's rotation is the library's. -/
theorem rotl32_eq_rotateLeft (x : Word) (s : RotAmount) : rotl32 x s = x.rotateLeft s.val := by
  rw [rotl32, BitVec.rotateLeft_def, Nat.mod_eq_of_lt (Nat.lt_succ_of_le s.property.2)]

/-- Each bit of a rotation comes from the place `s` below it, around the word. -/
theorem rotl32_getLsbD (x : Word) (s : RotAmount) {k : Nat} (hk : k < 32) :
    (rotl32 x s).getLsbD k = x.getLsbD ((k + (32 - s.val)) % 32) := by
  have hs := s.property
  rw [rotl32_eq_rotateLeft, BitVec.getLsbD_rotateLeft, Nat.mod_eq_of_lt (by omega : s.val < 32)]
  by_cases hlow : k < s.val
  · simp [hlow, show (k + (32 - s.val)) % 32 = 32 - s.val + k by omega]
  · simp [hlow, hk, show (k + (32 - s.val)) % 32 = k - s.val by omega]

/-- Two rotations whose amounts make up the width undo each other. -/
theorem rotl32_rotl32 (x : Word) {s s' : RotAmount} (h : s.val + s'.val = 32) : rotl32 (rotl32 x s) s' = x := by
  refine BitVec.eq_of_getLsbD_eq fun k hk => ?_
  rw [rotl32_getLsbD _ _ hk, rotl32_getLsbD _ _ (Nat.mod_lt _ (by decide))]
  congr 1
  omega

/-- A byte of a value as a digit of its number in base 256. -/
theorem byteOf_toNat {n : Nat} (v : BitVec n) (t : Nat) : (byteOf v t).toNat = v.toNat / 2 ^ (8 * t) % 2 ^ 8 := by
  rw [byteOf, BitVec.extractLsb'_toNat, Nat.shiftRight_eq_div_pow]

/-- R11: the value of four bytes; the sum does not wrap. -/
theorem le32dec_toNat (b0 b1 b2 b3 : Byte) : (le32dec b0 b1 b2 b3).toNat =
    b0.toNat + 2 ^ 8 * b1.toNat + 2 ^ 16 * b2.toNat + 2 ^ 24 * b3.toNat := by
  simp only [le32dec, zext32, BitVec.toNat_add, BitVec.toNat_shiftLeft, BitVec.toNat_setWidth, Nat.shiftLeft_eq]
  omega

/-- Encoding gives back the four decoded bytes. -/
theorem le32enc_le32dec (b0 b1 b2 b3 : Byte) : le32enc (le32dec b0 b1 b2 b3) = [b0, b1, b2, b3] := by
  have hdigit {t : Nat} {b : Byte} (h : (le32dec b0 b1 b2 b3).toNat / 2 ^ (8 * t) % 2 ^ 8 = b.toNat) :
      byteOf (le32dec b0 b1 b2 b3) t = b :=
    BitVec.eq_of_toNat_eq ((byteOf_toNat _ _).trans h)
  have hval := le32dec_toNat b0 b1 b2 b3
  rw [le32enc, hdigit (t := 0) (b := b0) (by omega), hdigit (t := 1) (b := b1) (by omega),
    hdigit (t := 2) (b := b2) (by omega), hdigit (t := 3) (b := b3) (by omega)]

/-- Decoding the four bytes of a word gives back the word. -/
theorem le32dec_byteOf (w : Word) : le32dec (byteOf w 0) (byteOf w 1) (byteOf w 2) (byteOf w 3) = w := by
  apply BitVec.eq_of_toNat_eq
  rw [le32dec_toNat, byteOf_toNat, byteOf_toNat, byteOf_toNat, byteOf_toNat]
  omega

/-- R11: item `t` of the encoding of a 64-bit value is its byte `t`. -/
theorem le64enc_getElem? (v : BitVec 64) {t : Nat} (ht : t < 8) : (le64enc v)[t]? = some (byteOf v t) := by
  interval_cases t <;> rfl

/-- Settles O33: bit by bit, so the two rotations cancel; the addition is that of `BitVec`. -/
theorem rotationLosesNoBits : Obligations.RotationLosesNoBits :=
  ⟨fun x s _ hk => rotl32_getLsbD x s hk, fun x _ _ h => rotl32_rotl32 x h, BitVec.toNat_add⟩

/-- Settles O32: the bytes of a word are the digits of its number in base 256, low-order digit first. -/
theorem littleEndianCodecsAreInverse : Obligations.LittleEndianCodecsAreInverse :=
  ⟨fun _ => rfl, le32dec_toNat, le32enc_le32dec, le32dec_byteOf, fun v _ ht => le64enc_getElem? v ht, le64enc_length⟩

end Sys2Proof.Machine
end

section
/-! PROOFS: the capacity and the reset state (spec/00_scope.md rule R6, spec/10_state.md rules R41 to R43). -/

namespace Sys2Proof.Machine

/-- R41: no command changes the capacity. -/
theorem exec_msgCap {i : Instr} {s t : State} (h : exec i s = .next t) : t.msgCap = s.msgCap := by
  rcases exec_cases h with ⟨-, -, rfl⟩ | ⟨-, rfl⟩ | ⟨-, h⟩
  · rfl
  · exact State.resetEngine_msgCap s
  · rcases h with ⟨-, rfl⟩ | ⟨-, -, -, rfl⟩ | ⟨-, -, -, rfl⟩ | ⟨-, rfl⟩ | ⟨-, -, -, rfl⟩ | ⟨-, -, -, rfl⟩ | ⟨-, rfl⟩ |
      ⟨-, -, rfl⟩ | ⟨-, -, rfl⟩ | ⟨-, -, rfl⟩ | ⟨-, -, -, rfl⟩ | ⟨-, -, -, rfl⟩ | ⟨-, -, rfl⟩ | ⟨-, -, rfl⟩ |
      ⟨-, -, rfl⟩ | ⟨-, -, rfl⟩ | ⟨-, rfl⟩ <;> simp

/-- R41: no transaction changes the capacity. -/
theorem perform_msgCap {tr : Transaction} {s t : State} (h : perform tr s = .next t) : t.msgCap = s.msgCap := by
  rcases perform_cases tr s with ⟨_, _, -, -, p⟩ | ⟨_, _, -, -, p⟩ | ⟨_, -, p⟩ | ⟨_, _, -, -, -, p⟩ | ⟨_, -, p⟩ | ⟨-, p⟩ <;>
    rw [p] at h
  · exact exec_msgCap h
  · rcases whenReady_cases h with ⟨-, rfl⟩ | ⟨-, rfl⟩ <;> simp
  · cases h; exact State.setMptr_msgCap ..
  · cases h; rfl
  · cases h; exact State.pushRead_msgCap ..
  · cases h; exact State.resetEngine_msgCap s

/-- No step changes the capacity. -/
theorem step_msgCap {s t : State} (h : step s = .next t) : t.msgCap = s.msgCap := by
  cases hp : s.pending with
  | nil => rw [step_idle hp] at h; cases h; rfl
  | cons tr rest => rw [step_pending hp] at h; exact (perform_msgCap h).trans (State.setPending_msgCap s rest)

/-- R31, R34: register 16 reads as the capacity. -/
theorem regRead_mcap (s : State) : regRead 16 s = s.msgCap := rfl

/-- The reset state of a legal capacity meets the invariant. -/
theorem resetWith_inv {cap : Word} (h : Config.LegalCapacity cap) : (State.resetWith cap).Inv where
  capacity := h
  mlen_le := Nat.zero_le _
  klen_le := Nat.zero_le _
  cause_iff := by simp
  dv_clear := by simp
  blk_le := Nat.zero_le _
  blk_zero _ := rfl
  fcmd_zero _ := rfl
  msg_wf := Memory.wf_nil
  msg_below := by simp
  key_wf := Memory.wf_nil
  key_below := by simp

/-- Settles O14: every update of the state keeps the capacity, and so does every transaction. -/
theorem capacityIsConstant : Obligations.CapacityIsConstant := by
  intro s t h
  rw [regRead_mcap, regRead_mcap]
  exact ⟨step_msgCap h, step_msgCap h⟩

/-- Settles O51; the capacity of `State.reset` is a legal one. -/
theorem resetMeetsTheInvariant : Obligations.ResetMeetsTheInvariant :=
  ⟨fun _ h => resetWith_inv h, resetWith_inv (by decide)⟩

end Sys2Proof.Machine
end

section
/-! PROOFS: what one transaction of the host can be (spec/30_encoding.md rules R91, R96, spec/43_system.md rules R201 to R205). -/

namespace Sys2Proof.Machine

theorem withoutOperand_ok {w : Word} {i j : Instr} (h : withoutOperand w i = .ok j) : imm8Field w = 0#8 ∧ i = j := by
  unfold withoutOperand at h
  split at h
  · exact ⟨‹_›, Except.ok.inj h⟩
  · cases h

/-- R96: the fields of a word that decodes are those of its command. -/
theorem fields_of_decode {w : Word} {i : Instr} (h : decode w = .ok i) :
    rsvField w = 0#16 ∧ opField w = opcode i ∧ imm8Field w = immediate i := by
  unfold decode at h
  split at h
  · cases h
  · rename_i hrsv
    refine ⟨not_not.1 hrsv, ?_⟩
    have hop {b : Byte} (e : (opField w).toNat = b.toNat) : opField w = b := BitVec.eq_of_toNat_eq e
    split at h
    iterate 2
      cases h
      exact ⟨hop ‹_›, rfl⟩
    iterate 9
      obtain ⟨himm, rfl⟩ := withoutOperand_ok h
      exact ⟨hop ‹_›, himm⟩
    cases h

/-- A word is made of its three fields. -/
theorem word_toNat (w : Word) :
    w.toNat = (opField w).toNat + 256 * (imm8Field w).toNat + 65536 * (rsvField w).toNat := by
  simp only [opField, imm8Field, rsvField, BitVec.extractLsb'_toNat, Nat.shiftRight_eq_div_pow]
  omega

/-- R91: the number of a command's word; the sum does not wrap. -/
theorem encode_toNat (i : Instr) : (encode i).toNat = (opcode i).toNat + 256 * (immediate i).toNat := by
  simp only [encode, BitVec.toNat_add, BitVec.toNat_mul, BitVec.toNat_setWidth, BitVec.toNat_ofNat]
  omega

/-- R96: a word that decodes is the word of its command. -/
theorem eq_encode_of_decode {w : Word} {i : Instr} (h : decode w = .ok i) : w = encode i := by
  obtain ⟨hrsv, hop, himm⟩ := fields_of_decode h
  apply BitVec.eq_of_toNat_eq
  rw [word_toNat, encode_toNat, hrsv, hop, himm]
  rfl

/-- Everything a transaction can do: execute a command whose word it writes, take the ILLEGAL fault, set MPTR, do nothing,
return a register's value, or reset. -/
theorem perform_next_cases {tr : Transaction} {s t : State} (h : perform tr s = .next t) :
    (∃ i, Transaction.writesCommand tr (encode i) ∧ exec i s = .next t) ∨
    (∃ w, Transaction.writesCommand tr w ∧ s.fault = false ∧ t = s.raise .illegal w) ∨
    (∃ v, t = s.setMptr v) ∨ t = s ∨ (∃ v, t = s.pushRead v) ∨ (tr = .reset ∧ t = s.resetEngine) := by
  rcases perform_cases tr s with ⟨w, i, hw, hd, p⟩ | ⟨w, r, hw, -, p⟩ | ⟨v, -, p⟩ | ⟨n, v, -, -, -, p⟩ | ⟨n, -, p⟩ |
    ⟨rfl, p⟩ <;> rw [p] at h
  · exact .inl ⟨i, eq_encode_of_decode hd ▸ hw, h⟩
  · rcases whenReady_cases h with ⟨-, rfl⟩ | ⟨hf, rfl⟩
    · exact .inr (.inr (.inr (.inl rfl)))
    · exact .inr (.inl ⟨w, hw, hf, rfl⟩)
  · cases h; exact .inr (.inr (.inl ⟨v, rfl⟩))
  · cases h; exact .inr (.inr (.inr (.inl rfl)))
  · cases h; exact .inr (.inr (.inr (.inr (.inl ⟨_, rfl⟩))))
  · cases h; exact .inr (.inr (.inr (.inr (.inr ⟨rfl, rfl⟩))))

end Sys2Proof.Machine
end


section
/-! PROOFS: the invariant of every reachable state (spec/10_state.md rules R25, R27 to R29, R33, R43). -/

namespace Sys2Proof.Machine

/-! One lemma per update of the state. -/

theorem State.Inv.setMptr {s : State} (h : s.Inv) (v : Word) : (s.setMptr v).Inv := { h with }

theorem State.Inv.pushRead {s : State} (h : s.Inv) (v : Word) : (s.pushRead v).Inv := { h with }

theorem State.Inv.setPending {s : State} (h : s.Inv) (ts : List Transaction) : (s.setPending ts).Inv := { h with }

theorem State.Inv.clobber {s : State} (h : s.Inv) : s.clobber.Inv := { h with }

theorem State.Inv.withWords {s : State} (h : s.Inv) (q : DigestState) : State.Inv { s with st := q } := { h with }

theorem State.Inv.emptyMessage {s : State} (h : s.Inv) : s.emptyMessage.Inv := { h with mlen_le := Nat.zero_le _ }

theorem State.Inv.emptyKey {s : State} (h : s.Inv) : s.emptyKey.Inv := { h with klen_le := Nat.zero_le _ }

theorem State.Inv.startState {s : State} (h : s.Inv) : s.startState.Inv :=
  { h with blk_le := Nat.zero_le _, blk_zero := fun _ => rfl }

theorem State.Inv.raise {s : State} (h : s.Inv) (x : FaultCause) (w : Word) : (s.raise x w).Inv :=
  { h with cause_iff := by simp, dv_clear := fun _ => rfl, fcmd_zero := by simp }

theorem State.Inv.resetEngine {s : State} (h : s.Inv) : s.resetEngine.Inv := { resetWith_inv h.capacity with }

/-- ENC and HMAC are executed in mode READY only, where DV may be 1. -/
theorem State.Inv.putDigest {s : State} (h : s.Inv) (hf : s.fault = false) (v : Vector Byte 16) : (s.putDigest v).Inv :=
  { h with
    dv_clear := by simp [hf]
    blk_le := Nat.zero_le _
    blk_zero := fun _ => rfl }

/-- The block at the cursor lies below MLEN, so the advanced cursor is within the capacity. -/
theorem State.Inv.advance {s : State} (h : s.Inv) (hsv : s.sv = true) (hb : 64 * (s.blk.toNat + 1) ≤ s.mlen.toNat)
    (q : DigestState) : (s.advance q).Inv :=
  { h with
    blk_le := by
      have hm := h.mlen_le
      rw [advance_blk_toNat q hb, State.advance_msgCap]
      omega
    blk_zero := by simp [hsv] }

/-- An append that fits ends within the capacity. -/
theorem State.Inv.appended {s : State} (h : s.Inv) {bs : List Byte}
    (hfit : s.mlen.toNat + bs.length ≤ s.msgCap.toNat) : (s.appended bs).Inv :=
  { h with
    mlen_le := by rw [appended_mlen_toNat hfit]; exact hfit
    msg_wf := Memory.writeBytes_wf h.msg_wf _ _
    msg_below := Memory.writeBytes_below h.msg_below hfit }

/-- A key byte below 64 is stored inside the key store. -/
theorem State.Inv.keyAppended {s : State} (h : s.Inv) (hk : s.klen.toNat < 64) (b : Byte) : (s.keyAppended b).Inv :=
  { h with
    klen_le := by rw [keyAppended_klen_toNat b hk]; exact hk
    key_wf := Memory.write_wf h.key_wf _ _
    key_below := Memory.write_below h.key_below hk b }

theorem State.Inv.hashedState {s : State} (h : s.Inv) (hf : s.fault = false)
    (hfit : s.mlen.toNat + (9 + padZeros s.mlen.toNat) ≤ s.msgCap.toNat) : (hashedState s).Inv :=
  ((h.withWords (hashWords s)).appended (by simpa using hfit)).putDigest hf _

theorem State.Inv.hmacState {s : State} (h : s.Inv) (hf : s.fault = false) : (hmacState s).Inv := h.clobber.putDigest hf _

/-! Commands, transactions, steps and runs. -/

/-- Every command keeps the invariant. -/
theorem exec_inv {i : Instr} {s t : State} (h : s.Inv) (e : exec i s = .next t) : t.Inv := by
  rcases exec_cases e with ⟨-, -, rfl⟩ | ⟨-, rfl⟩ | ⟨hf, e⟩
  · exact h
  · exact h.resetEngine
  rcases e with ⟨-, rfl⟩ | ⟨b, -, hfit, rfl⟩ | ⟨b, -, -, rfl⟩ | ⟨-, rfl⟩ | ⟨b, -, hk, rfl⟩ | ⟨b, -, -, rfl⟩ | ⟨-, rfl⟩ |
    ⟨-, hfit, rfl⟩ | ⟨-, -, rfl⟩ | ⟨-, -, rfl⟩ | ⟨-, -, -, rfl⟩ | ⟨-, hsv, hb, rfl⟩ | ⟨-, -, rfl⟩ | ⟨-, -, rfl⟩ |
    ⟨-, hfit, rfl⟩ | ⟨-, -, rfl⟩ | ⟨-, rfl⟩
  · exact h.emptyMessage
  · exact h.appended hfit
  · exact h.raise _ _
  · exact h.emptyKey
  · exact h.keyAppended hk b
  · exact h
  · exact h.startState
  · exact h.appended (by simpa using hfit)
  · exact h.raise _ _
  · exact h.raise _ _
  · exact h.raise _ _
  · exact h.advance hsv hb _
  · exact h.raise _ _
  · exact h.putDigest hf _
  · exact h.hashedState hf hfit
  · exact h.startState.raise _ _
  · exact h.hmacState hf

/-- Every transaction keeps the invariant. -/
theorem perform_inv {tr : Transaction} {s t : State} (h : s.Inv) (e : perform tr s = .next t) : t.Inv := by
  rcases perform_next_cases e with ⟨i, -, e⟩ | ⟨w, -, -, rfl⟩ | ⟨v, rfl⟩ | rfl | ⟨v, rfl⟩ | ⟨-, rfl⟩
  · exact exec_inv h e
  · exact h.raise _ _
  · exact h.setMptr v
  · exact h
  · exact h.pushRead v
  · exact h.resetEngine

/-- Every run keeps the invariant. -/
theorem runTransactions_inv {ts : List Transaction} {s t : State} (h : s.Inv) (e : runTransactions ts s = .next t) :
    t.Inv := by
  induction ts generalizing s with
  | nil => cases e; exact h
  | cons tr ts ih =>
    obtain ⟨u, hu⟩ := perform_next tr s
    rw [runTransactions_cons hu] at e
    exact ih (perform_inv h hu) e

/-- Settles O52: a step performs one transaction, and every update of the state keeps the invariant where its guard holds. -/
theorem everyStepKeepsTheInvariant : Obligations.EveryStepKeepsTheInvariant := by
  intro s t h e
  cases hp : s.pending with
  | nil => rw [step_idle hp] at e; cases e; exact h
  | cons tr rest => rw [step_pending hp] at e; exact perform_inv (h.setPending rest) e

end Sys2Proof.Machine
end

section
/-! PROOFS: a relation between two states goes through a transaction when it goes through each command and each of the host's
other actions (spec/43_system.md rules R201 to R204). -/

namespace Sys2Proof.Machine

/-- The mode test keeps a relation between states of one mode that holds before and after the command's effect. -/
theorem whenReady_rel {R : State → State → Prop} {s t r r' u : State} (hf : s.fault = t.fault) (h : R s t) (hr : R r r')
    (e : whenReady s r = .next u) : ∃ u', whenReady t r' = .next u' ∧ R u u' := by
  rcases whenReady_cases e with ⟨hs, rfl⟩ | ⟨hs, rfl⟩
  · exact ⟨t, whenReady_faulted (hf ▸ hs) _, h⟩
  · exact ⟨r', whenReady_ready (hf ▸ hs) _, hr⟩

/-- A transaction does to both states what it is, whatever they hold. -/
theorem perform_rel {R : State → State → Prop} {tr : Transaction} {s t u : State} (hf : s.fault = t.fault) (h : R s t)
    (hexec : ∀ i u, Transaction.writesCommand tr (encode i) → exec i s = .next u → ∃ u', exec i t = .next u' ∧ R u u')
    (hraise : ∀ w, R (s.raise .illegal w) (t.raise .illegal w)) (hmptr : ∀ v, R (s.setMptr v) (t.setMptr v))
    (hread : ∀ n, R (s.pushRead (regRead n s)) (t.pushRead (regRead n t))) (hreset : R s.resetEngine t.resetEngine)
    (e : perform tr s = .next u) : ∃ u', perform tr t = .next u' ∧ R u u' := by
  have hcmd (w : Word) (hw : Transaction.writesCommand tr w) (e : cmdWrite w s = .next u) :
      ∃ u', cmdWrite w t = .next u' ∧ R u u' := by
    cases hd : decode w with
    | ok i =>
      rw [cmdWrite_legal hd] at e ⊢
      exact hexec i u (eq_encode_of_decode hd ▸ hw) e
    | error r =>
      simp only [cmdWrite, hd] at e ⊢
      exact whenReady_rel hf h (hraise w) e
  cases tr with
  | cmdWrite w => exact hcmd w (.inl rfl) e
  | regWrite n v =>
    by_cases h0 : n = 0
    · subst h0
      exact hcmd v (.inr rfl) e
    by_cases h6 : n = 6
    · subst h6
      cases e
      exact ⟨_, regWrite_mptr v t, hmptr v⟩
    · rw [perform, regWrite_other h0 h6] at e
      cases e
      exact ⟨t, regWrite_other h0 h6 v t, h⟩
  | regRead n => cases e; exact ⟨_, rfl, hread n⟩
  | reset => cases e; exact ⟨_, rfl, hreset⟩

end Sys2Proof.Machine
end

section
/-! PROOFS: what the host cannot tell apart (spec/10_state.md rules R21, R23, R27, R28, R42). -/

namespace Sys2Proof.Machine

/-! Register reads. -/

theorem gated_congr {valid : Bool} {v w : Word} (h : valid = true → v = w) : gated valid v = gated valid w := by
  cases valid with
  | false => rfl
  | true => exact h rfl

/-- R35: MBYTE is a byte of the message. -/
theorem mbyte_eq (s : State) :
    s.mbyte = if s.mptr < s.mlen then zext32 (s.message.getD s.mptr.toNat 0#8) else 0#32 := by
  unfold State.mbyte
  split
  · have hlt : s.mptr.toNat < s.message.length := by simpa [BitVec.lt_def] using ‹s.mptr < s.mlen›
    rw [List.getD_eq_getElem _ _ hlt]
    simp [State.message]
  · rfl

/-- No register tells the two states apart. -/
theorem State.SameToHost.readReg {s t : State} (h : s.SameToHost t) (r : PortReg) : s.readReg r = t.readReg r := by
  have hword (f : State → Word) (e : s.sv = true → f s = f t) : gated s.sv (f s) = gated t.sv (f t) :=
    h.sv ▸ gated_congr e
  have hdig (k : Fin 4) : s.digestWord k = t.digestWord k := by
    unfold State.digestWord
    rw [← h.dv]
    exact gated_congr fun hd => by rw [h.dig hd]
  cases r with
  | cmd => rfl
  | status => simp only [State.readReg, State.statusWord, h.sv, h.dv, h.fault, h.cause]
  | fcmd => exact h.fcmd
  | mlen => exact h.mlen
  | klen => exact congrArg (BitVec.zeroExtend 32) h.klen
  | blk => exact hword (·.blk) h.blk
  | mptr => exact h.mptr
  | mbyte => simp only [State.readReg, mbyte_eq, h.mptr, h.mlen, h.message]
  | sta => exact hword (·.st.x 0) fun hv => by rw [h.st hv]
  | stb => exact hword (·.st.x 1) fun hv => by rw [h.st hv]
  | stc => exact hword (·.st.x 2) fun hv => by rw [h.st hv]
  | std => exact hword (·.st.x 3) fun hv => by rw [h.st hv]
  | dig0 => exact hdig 0
  | dig1 => exact hdig 1
  | dig2 => exact hdig 2
  | dig3 => exact hdig 3
  | mcap => exact h.msgCap

theorem State.SameToHost.regRead {s t : State} (h : s.SameToHost t) (n : Fin 64) : regRead n s = regRead n t := by
  unfold Machine.regRead
  split
  · exact h.readReg _
  · rfl

/-! One lemma per update of the state. -/

namespace State.SameToHost

variable {s t : State}

theorem setMptr (h : s.SameToHost t) (v : Word) : (s.setMptr v).SameToHost (t.setMptr v) := { h with mptr := rfl }

theorem pushRead (h : s.SameToHost t) (v : Word) : (s.pushRead v).SameToHost (t.pushRead v) :=
  { h with reads := by simp [h.reads] }

theorem setPending (h : s.SameToHost t) (ts : List Transaction) : (s.setPending ts).SameToHost (t.setPending ts) :=
  { h with pending := rfl }

/-- Every field is at its reset value but the capacity and the host's lists. -/
theorem resetEngine (h : s.SameToHost t) : s.resetEngine.SameToHost t.resetEngine where
  msgCap := h.msgCap
  sv := rfl
  st _ := rfl
  blk _ := rfl
  dv := rfl
  dig _ := rfl
  mlen := rfl
  message := rfl
  klen := rfl
  keyBytes := rfl
  fault := rfl
  cause := rfl
  fcmd := rfl
  mptr := rfl
  pending := h.pending
  reads := h.reads

/-- A to D may take any same words. -/
theorem withWords (h : s.SameToHost t) (q : DigestState) : State.SameToHost { s with st := q } { t with st := q } :=
  { h with st := fun _ => rfl }

theorem emptyMessage (h : s.SameToHost t) : s.emptyMessage.SameToHost t.emptyMessage :=
  { h with mlen := rfl, message := rfl }

theorem emptyKey (h : s.SameToHost t) : s.emptyKey.SameToHost t.emptyKey := { h with klen := rfl, keyBytes := rfl }

theorem startState (h : s.SameToHost t) : s.startState.SameToHost t.startState :=
  { h with sv := rfl, st := fun _ => rfl, blk := fun _ => rfl }

theorem raise (h : s.SameToHost t) (x : FaultCause) (w : Word) : (s.raise x w).SameToHost (t.raise x w) :=
  { h with fault := rfl, cause := rfl, fcmd := rfl, dv := rfl, dig := by simp }

theorem advance (h : s.SameToHost t) (hsv : s.sv = true) (q : DigestState) : (s.advance q).SameToHost (t.advance q) :=
  { h with st := fun _ => rfl, blk := fun _ => by simp [h.blk hsv] }

/-- The state is consumed, so A to D may differ afterwards. -/
theorem putDigest (h : s.SameToHost t) (v : Vector Byte 16) : (s.putDigest v).SameToHost (t.putDigest v) :=
  { h with sv := rfl, dv := rfl, dig := fun _ => rfl, st := by simp, blk := by simp }

theorem appended (h : s.SameToHost t) (hs : Memory.wf s.msg) (ht : Memory.wf t.msg) {bs : List Byte}
    (hfit : s.mlen.toNat + bs.length ≤ s.msgCap.toNat) : (s.appended bs).SameToHost (t.appended bs) :=
  { h with
    mlen := by simp [h.mlen]
    message := by
      rw [appended_message hs hfit, appended_message ht (by rwa [← h.mlen, ← h.msgCap]), h.message] }

theorem keyAppended (h : s.SameToHost t) (hs : Memory.wf s.key) (ht : Memory.wf t.key) (hk : s.klen.toNat < 64)
    (b : Byte) : (s.keyAppended b).SameToHost (t.keyAppended b) :=
  { h with
    klen := by simp [h.klen]
    keyBytes := by rw [keyAppended_keyBytes b hs hk, keyAppended_keyBytes b ht (by rwa [← h.klen]), h.keyBytes] }

/-! Sub-steps and commands. -/

theorem appendOrRaise (h : s.SameToHost t) (hs : Memory.wf s.msg) (ht : Memory.wf t.msg) (w : Word) (bs : List Byte) :
    (appendOrRaise w bs s).state.SameToHost (appendOrRaise w bs t).state := by
  rcases appendOrRaise_cases w bs s with ⟨hl, e⟩ | ⟨hl, e⟩ <;> rw [e]
  · rw [appendOrRaise_fits (by rwa [← h.mlen, ← h.msgCap])]
    exact h.appended hs ht hl
  · rw [appendOrRaise_full (by rwa [← h.mlen, ← h.msgCap])]
    exact h.raise _ _

theorem padStep (h : s.SameToHost t) (hs : Memory.wf s.msg) (ht : Memory.wf t.msg) (w : Word) :
    (padStep w s).state.SameToHost (padStep w t).state := by
  unfold Machine.padStep
  rw [← h.mlen]
  exact h.appendOrRaise hs ht w _

/-- The block compressed is a block of the message. -/
theorem cblkStep (h : s.SameToHost t) (w : Word) : (cblkStep w s).state.SameToHost (cblkStep w t).state := by
  rcases cblkStep_cases w s with ⟨hv, e⟩ | ⟨hv, hb, e⟩ | ⟨hv, hb, e⟩ <;> rw [e]
  · rw [cblkStep_nostate (by rwa [← h.sv])]
    exact h.raise _ _
  · rw [cblkStep_noblock (by rwa [← h.sv]) (by rwa [← h.mlen, ← h.blk hv])]
    exact h.raise _ _
  · have hb' : 64 * (t.blk.toNat + 1) ≤ t.mlen.toNat := by rwa [← h.mlen, ← h.blk hv]
    rw [cblkStep_block (by rwa [← h.sv]) hb', block_eq_blockOf hb, block_eq_blockOf hb', ← h.st hv, ← h.message,
      ← h.blk hv]
    exact h.advance hv _

theorem encStep (h : s.SameToHost t) (w : Word) : (encStep w s).state.SameToHost (encStep w t).state := by
  rcases encStep_cases w s with ⟨hv, e⟩ | ⟨hv, e⟩ <;> rw [e]
  · rw [encStep_nostate (by rwa [← h.sv])]
    exact h.raise _ _
  · rw [encStep_state (by rwa [← h.sv]), ← h.st hv]
    exact h.putDigest _

/-- HASH writes A to D before it reads them, and digests the message. -/
theorem hashSteps (h : s.SameToHost t) (hs : Memory.wf s.msg) (ht : Memory.wf t.msg) (w : Word) :
    (hashSteps w s).state.SameToHost (hashSteps w t).state := by
  rcases hashSteps_cases w s with ⟨hl, e⟩ | ⟨hl, e⟩ <;> rw [e]
  · have hfit : s.mlen.toNat + (padTail s.mlen.toNat).length ≤ s.msgCap.toNat := by simpa using hl
    have htail : padTail s.mlen.toNat = padTail t.mlen.toNat := by rw [h.mlen]
    have hwords : hashWords s = hashWords t := by
      rw [hashWords, (h.appended hs ht hfit).message, htail, h.mlen, ← hashWords]
    rw [hashSteps_fits (by rwa [← h.mlen, ← h.msgCap]), finished_state, finished_state, hashedState, hashedState,
      ← hwords, ← htail]
    exact ((h.withWords (hashWords s)).appended hs ht hfit).putDigest _
  · rw [hashSteps_full (by rwa [← h.mlen, ← h.msgCap])]
    exact h.startState.raise _ _

theorem hmacState (h : s.SameToHost t) : (hmacState s).SameToHost (hmacState t) := by
  unfold Machine.hmacState
  rw [← h.keyBytes, ← h.message]
  exact { h with sv := rfl, dv := rfl, dig := fun _ => rfl, st := by simp, blk := by simp }

end State.SameToHost

/-- Every command takes states the host cannot tell apart to such states. -/
theorem exec_sameToHost {i : Instr} {s t u : State} (hs : s.Inv) (ht : t.Inv) (h : s.SameToHost t)
    (e : exec i s = .next u) : ∃ u', exec i t = .next u' ∧ u.SameToHost u' := by
  cases i with
  | rst => cases e; exact ⟨_, exec_rst t, h.resetEngine⟩
  | mclr => exact whenReady_rel h.fault h h.emptyMessage e
  | mapp b => exact whenReady_rel h.fault h (h.appendOrRaise hs.msg_wf ht.msg_wf _ _) e
  | kclr => exact whenReady_rel h.fault h h.emptyKey e
  | kapp b =>
    refine whenReady_rel h.fault h ?_ e
    rw [← h.klen]
    split
    · exact h.keyAppended hs.key_wf ht.key_wf ‹_› b
    · exact h
  | init => exact whenReady_rel h.fault h h.startState e
  | pad => exact whenReady_rel h.fault h (h.padStep hs.msg_wf ht.msg_wf _) e
  | cblk => exact whenReady_rel h.fault h (h.cblkStep _) e
  | enc => exact whenReady_rel h.fault h (h.encStep _) e
  | hash => exact whenReady_rel h.fault h (h.hashSteps hs.msg_wf ht.msg_wf _) e
  | hmac => exact whenReady_rel h.fault h h.hmacState e

/-- Every transaction takes states the host cannot tell apart to such states. -/
theorem perform_sameToHost {tr : Transaction} {s t u : State} (hs : s.Inv) (ht : t.Inv) (h : s.SameToHost t)
    (e : perform tr s = .next u) : ∃ u', perform tr t = .next u' ∧ u.SameToHost u' :=
  perform_rel h.fault h (fun _ _ _ => exec_sameToHost hs ht h) (h.raise _) h.setMptr
    (fun n => h.regRead n ▸ h.pushRead _) h.resetEngine e

/-- Settles O58: unspecified storage is read by no register, and every command that reads A to D, DIG or a store byte reads
specified storage only. -/
theorem unspecifiedStorageIsUnobservable : Obligations.UnspecifiedStorageIsUnobservable := by
  intro s t hs ht h
  refine ⟨h.regRead, fun u e => ?_⟩
  cases hp : s.pending with
  | nil =>
    rw [step_idle hp] at e
    cases e
    exact ⟨t, step_idle (h.pending ▸ hp), h⟩
  | cons tr rest =>
    rw [step_pending hp] at e
    rw [step_pending (h.pending ▸ hp)]
    exact perform_sameToHost (hs.setPending rest) (ht.setPending rest) (h.setPending rest) e

end Sys2Proof.Machine
end

section
/-! PROOFS: the key bytes (spec/10_state.md rule R28, spec/20_memory.md rules R70, R75, spec/60_exceptions.md rule R241). -/

namespace Sys2Proof.Machine

/-- The same state with other bytes in the key store. -/
def State.withKey (k : Memory) (s : State) : State := { s with key := k }

/-- The two states differ in the bytes of the key store only. -/
def State.SameButKey (s t : State) : Prop := ∃ k, t = s.withKey k

/-- No register reads the key store's bytes. -/
theorem regRead_withKey (n : Fin 64) (k : Memory) (s : State) : regRead n (s.withKey k) = regRead n s := by
  unfold regRead
  split
  · rename_i r _
    cases r <;> rfl
  · rfl

theorem appendOrRaise_withKey (w : Word) (bs : List Byte) (k : Memory) (s : State) :
    (appendOrRaise w bs (s.withKey k)).state = (appendOrRaise w bs s).state.withKey k := by
  rcases appendOrRaise_cases w bs s with ⟨hl, e⟩ | ⟨hl, e⟩ <;> rw [e]
  · rw [appendOrRaise_fits (s := s.withKey k) hl]; rfl
  · rw [appendOrRaise_full (s := s.withKey k) hl]; rfl

theorem cblkStep_withKey (w : Word) (k : Memory) (s : State) :
    (cblkStep w (s.withKey k)).state = (cblkStep w s).state.withKey k := by
  rcases cblkStep_cases w s with ⟨hv, e⟩ | ⟨hv, hb, e⟩ | ⟨hv, hb, e⟩ <;> rw [e]
  · rw [cblkStep_nostate (s := s.withKey k) hv]; rfl
  · rw [cblkStep_noblock (s := s.withKey k) hv hb]; rfl
  · rw [cblkStep_block (s := s.withKey k) hv hb, show (s.withKey k).st = s.st from rfl,
      show (s.withKey k).block = s.block from rfl]
    generalize md5Compress s.st s.block = q
    rfl

theorem encStep_withKey (w : Word) (k : Memory) (s : State) :
    (encStep w (s.withKey k)).state = (encStep w s).state.withKey k := by
  rcases encStep_cases w s with ⟨hv, e⟩ | ⟨hv, e⟩ <;> rw [e]
  · rw [encStep_nostate (s := s.withKey k) hv]; rfl
  · rw [encStep_state (s := s.withKey k) hv]; rfl

theorem hashSteps_withKey (w : Word) (k : Memory) (s : State) :
    (hashSteps w (s.withKey k)).state = (hashSteps w s).state.withKey k := by
  rcases hashSteps_cases w s with ⟨hl, e⟩ | ⟨hl, e⟩ <;> rw [e]
  · rw [hashSteps_fits (s := s.withKey k) hl]; rfl
  · rw [hashSteps_full (s := s.withKey k) hl]; rfl

/-- With other key bytes every command but HMAC gives the same state but for the key store. -/
theorem exec_sameButKey {i : Instr} {s u : State} (k : Memory) (hi : i ≠ .hmac) (e : exec i s = .next u) :
    ∃ u', exec i (s.withKey k) = .next u' ∧ u.SameButKey u' := by
  have hs : s.SameButKey (s.withKey k) := ⟨k, rfl⟩
  have ready {r r' : State} (e : whenReady s r = .next u) (hr : r.SameButKey r') :
      ∃ u', whenReady (s.withKey k) r' = .next u' ∧ u.SameButKey u' :=
    whenReady_rel (s := s) rfl hs hr e
  cases i with
  | rst => cases e; exact ⟨_, exec_rst _, [], rfl⟩
  | mclr => exact ready e ⟨k, rfl⟩
  | mapp b => exact ready e ⟨k, appendOrRaise_withKey _ _ k s⟩
  | kclr => exact ready e ⟨k, rfl⟩
  | kapp b =>
    refine ready e ?_
    rw [show (s.withKey k).klen = s.klen from rfl]
    split
    · exact ⟨Memory.write k s.klen.toNat b, rfl⟩
    · exact hs
  | init => exact ready e ⟨k, rfl⟩
  | pad => exact ready e ⟨k, appendOrRaise_withKey _ _ k s⟩
  | cblk => exact ready e ⟨k, cblkStep_withKey _ k s⟩
  | enc => exact ready e ⟨k, encStep_withKey _ k s⟩
  | hash => exact ready e ⟨k, hashSteps_withKey _ k s⟩
  | hmac => exact absurd rfl hi

/-- Settles O57: no register reads the key store's bytes, and no command but HMAC does. -/
theorem keyBytesReachTheHostOnlyThroughHmac : Obligations.KeyBytesReachTheHostOnlyThroughHmac := by
  refine ⟨fun s k n => regRead_withKey n k s, fun s u k tr htr e => ?_⟩
  have hexec (i : Instr) (u : State) (hw : Transaction.writesCommand tr (encode i)) (e : exec i s = .next u) :
      ∃ u', exec i (s.withKey k) = .next u' ∧ u.SameButKey u' := by
    refine exec_sameButKey k ?_ e
    rintro rfl
    exact htr hw
  obtain ⟨u', e', k', rfl⟩ := perform_rel (R := State.SameButKey) (s := s) (t := s.withKey k) rfl ⟨k, rfl⟩ hexec
    (fun _ => ⟨k, rfl⟩) (fun _ => ⟨k, rfl⟩) (fun n => ⟨k, by rw [regRead_withKey]; rfl⟩) ⟨[], rfl⟩ e
  exact ⟨k', e'⟩

end Sys2Proof.Machine
end

section
/-! PROOFS: what the registers of the port read (spec/10_state.md rules R32, R37, R42). -/

namespace Sys2Proof.Machine

/-! STATUS. -/

/-- R32: the fields of STATUS.  The word depends on three flags and a four-bit code only: all 128 of its values are looked at. -/
theorem statusWord_fields (s : State) :
    s.statusWord.getLsbD 0 = s.sv ∧ s.statusWord.getLsbD 1 = s.dv ∧ s.statusWord.getLsbD 2 = s.fault ∧
    s.statusWord.getLsbD 3 = false ∧ s.statusWord.extractLsb' 4 4 = causeCode s.cause ∧
    s.statusWord.extractLsb' 8 24 = 0#24 := by
  unfold State.statusWord
  generalize s.sv = sv, s.dv = dv, s.fault = fault, causeCode s.cause = c
  revert sv dv fault c
  decide

/-- R221: codes 5 to 15 are never produced. -/
theorem causeCode_lt (c : Option FaultCause) : (causeCode c).toNat < 5 := by
  rcases c with _ | _ | _ | _ | _ <;> decide

/-- R32: the value of STATUS; the sum does not wrap. -/
theorem statusWord_toNat (s : State) : s.statusWord.toNat =
    s.sv.toNat + 2 * s.dv.toNat + 4 * s.fault.toNat + 16 * (causeCode s.cause).toNat := by
  have hsv := s.sv.toNat_lt
  have hdv := s.dv.toNat_lt
  have hfault := s.fault.toNat_lt
  have hcause := causeCode_lt s.cause
  rw [State.statusWord, BitVec.toNat_ofNat]
  omega

/-- Settles O10: STATUS is the sum of its fields at their places. -/
theorem statusFieldsAreWhereTheTableSays : Obligations.StatusFieldsAreWhereTheTableSays := by
  intro s
  rw [show regRead 1 s = s.statusWord from rfl]
  obtain ⟨hsv, hdv, hfault, hzero, hcause, hhigh⟩ := statusWord_fields s
  refine ⟨hsv, hdv, hfault, hzero, hcause, hhigh, rfl, rfl, rfl, rfl, rfl, causeCode_lt, fun hinv hf => ?_,
    statusWord_toNat s, fun _ => rfl⟩
  rw [hcause, hinv.cause_iff.2 hf]
  rfl

/-! Reset. -/

theorem readReg_resetEngine (s : State) (r : PortReg) :
    s.resetEngine.readReg r = if r = .mcap then s.msgCap else 0#32 := by
  cases r <;> rfl

theorem portRegOf_eq_mcap {n : Fin 64} : portRegOf n = some .mcap ↔ n = 16 := by revert n; decide

theorem regRead_resetEngine (s : State) (n : Fin 64) :
    regRead n s.resetEngine = if n = 16 then s.msgCap else 0#32 := by
  simp only [← portRegOf_eq_mcap, regRead]
  cases portRegOf n with
  | none => rfl
  | some r => simp [readReg_resetEngine]

/-- Settles O16: the three states are each what the reset of some state gives. -/
theorem resetRegistersReadZero : Obligations.ResetRegistersReadZero := by
  intro t h
  obtain ⟨s, rfl⟩ : ∃ s, t = State.resetEngine s := by
    rcases h with ⟨cap, rfl⟩ | ⟨s, e⟩ | ⟨s, e⟩
    · exact ⟨State.resetWith cap, rfl⟩
    · cases e; exact ⟨s, rfl⟩
    · cases e; exact ⟨s, rfl⟩
  exact ⟨rfl, rfl, rfl, rfl, rfl, rfl, rfl, rfl, rfl, rfl, rfl, regRead_resetEngine s⟩

/-! The digest registers. -/

theorem regRead_dig (s : State) (k : Fin 4) : regRead (Fin.ofNat 64 (12 + k.val)) s = s.digestWord k := by
  fin_cases k <;> rfl

/-- R37, R156: digest register `k` of an encoded state decodes to word `k`. -/
theorem digestWord_putDigest_encode (s : State) (q : DigestState) (k : Fin 4) :
    (s.putDigest (md5Encode q)).digestWord k = q.x k := by
  fin_cases k
  · exact le32dec_byteOf q.a
  · exact le32dec_byteOf q.b
  · exact le32dec_byteOf q.c
  · exact le32dec_byteOf q.d

/-- Where DV is 1 a digest register encodes to its four digest bytes. -/
theorem le32enc_digestWord {s : State} (h : s.dv = true) (k : Fin 4) : le32enc (s.digestWord k) =
    [s.dig.get ⟨4 * k.val, by omega⟩, s.dig.get ⟨4 * k.val + 1, by omega⟩, s.dig.get ⟨4 * k.val + 2, by omega⟩,
      s.dig.get ⟨4 * k.val + 3, by omega⟩] := by
  rw [State.digestWord, gated, if_pos h, le32enc_le32dec]

/-- Settles O31: a digest register decodes four digest bytes, and the codecs are inverse. -/
theorem digestRegistersReadTheEncodedWords : Obligations.DigestRegistersReadTheEncodedWords := by
  refine ⟨fun s k => ?_, fun s t hf hv e k => ?_, fun s hd => ?_⟩
  · rw [regRead_dig]
    fin_cases k <;> rfl
  · rw [exec_enc hf, encStep_state hv] at e
    cases e
    rw [regRead_dig]
    exact digestWord_putDigest_encode s s.st k
  · rw [show regRead 12 s = s.digestWord 0 from rfl, show regRead 13 s = s.digestWord 1 from rfl,
      show regRead 14 s = s.digestWord 2 from rfl, show regRead 15 s = s.digestWord 3 from rfl,
      le32enc_digestWord hd, le32enc_digestWord hd, le32enc_digestWord hd, le32enc_digestWord hd]
    refine List.ext_getElem (by simp) fun i hi _ => ?_
    simp only [Vector.length_toList] at hi
    interval_cases i <;> rfl

end Sys2Proof.Machine
end

section
/-! PROOFS: HASH and the run of its primitives (spec/42_hash_hmac.md rules R181, R182). -/

namespace Sys2Proof.Machine

/-! Runs of commands. -/

/-- A word that decodes, written at the head of a run. -/
theorem runTransactions_cmd {w : Word} {i : Instr} {s t : State} (ts : List Transaction) (hd : decode w = .ok i)
    (e : exec i s = .next t) : runTransactions (.cmdWrite w :: ts) s = runTransactions ts t :=
  runTransactions_cons ((cmdWrite_legal hd s).trans e)

/-- A run of transactions that are each ignored changes nothing. -/
theorem runTransactions_ignored {ts : List Transaction} {s : State} (h : ∀ tr ∈ ts, perform tr s = .next s) :
    runTransactions ts s = .next s := by
  induction ts with
  | nil => rfl
  | cons tr ts ih =>
    rw [runTransactions_cons (h tr List.mem_cons_self)]
    exact ih fun x hx => h x (List.mem_cons_of_mem _ hx)

/-- In mode FAULTED a legal word other than RST is ignored. -/
theorem perform_cmd_faulted {w : Word} {i : Instr} {s : State} (hd : decode w = .ok i) (hi : i ≠ .rst)
    (hf : s.fault = true) : perform (.cmdWrite w) s = .next s :=
  (cmdWrite_legal hd s).trans (exec_faulted hf hi)

/-- A run of CBLKs over whole blocks is CBLK's sub-step repeated. -/
theorem runTransactions_cblks {n : Nat} {s : State} (hf : s.fault = false) (hv : s.sv = true)
    (hb : 64 * (s.blk.toNat + n) ≤ s.mlen.toNat) (w : Word) :
    runTransactions (List.replicate n (.cmdWrite 0x00000022#32)) s = .next (cblkSteps w n s).state := by
  induction n generalizing s with
  | zero => rfl
  | succ n ih =>
    have hblock : 64 * (s.blk.toNat + 1) ≤ s.mlen.toNat := by omega
    have e : exec .cblk s = .next (s.advance (md5Compress s.st (blockOf s.message s.blk.toNat))) := by
      rw [exec_cblk hf, cblkStep_block hv hblock, block_eq_blockOf hblock, finished_state]
    have hnext (q : DigestState) : 64 * ((s.advance q).blk.toNat + n) ≤ (s.advance q).mlen.toNat := by
      rw [advance_blk_toNat q hblock, State.advance_mlen]
      omega
    rw [List.replicate_succ, runTransactions_cmd _ (by decide) e, cblkSteps_succ hv hblock]
    exact ih (by simpa using hf) (by simpa using hv) (hnext _)

/-! The sub-steps of HASH. -/

/-- The state of HASH after its INIT and its PAD, where the padding fits. -/
def paddedState (s : State) : State := s.startState.appended (padTail s.mlen.toNat)

@[simp] theorem paddedState_st (s : State) : (paddedState s).st = iv := (rfl)
@[simp] theorem paddedState_sv (s : State) : (paddedState s).sv = true := (rfl)
@[simp] theorem paddedState_blk (s : State) : (paddedState s).blk = 0#32 := (rfl)
@[simp] theorem paddedState_fault (s : State) : (paddedState s).fault = s.fault := (rfl)

/-- Every block of the padded store is compressed, and no word is recorded. -/
theorem cblkSteps_paddedState (s : State) :
    ∃ q, (∀ w, cblkSteps w (paddedState s).blockCount (paddedState s) = .finished q) ∧
      q.fault = s.fault ∧ q.sv = true := by
  refine ⟨_, fun _ => cblkSteps_blocks rfl ?_, rfl, rfl⟩
  simp only [State.blockCount, paddedState_blk, BitVec.toNat_ofNat]
  omega

section Fits

variable {s : State} (hfit : s.mlen.toNat + (9 + padZeros s.mlen.toNat) ≤ s.msgCap.toNat)
include hfit

theorem padStep_startState (w : Word) : padStep w s.startState = .finished (paddedState s) :=
  padStep_fits (s := s.startState) hfit

theorem paddedState_mlen_toNat : (paddedState s).mlen.toNat = s.mlen.toNat + (9 + padZeros s.mlen.toNat) := by
  rw [paddedState, appended_mlen_toNat (by simpa using hfit), padTail_length, State.startState_mlen]

theorem paddedState_blockCount : (paddedState s).blockCount = (s.mlen.toNat + (9 + padZeros s.mlen.toNat)) / 64 := by
  rw [State.blockCount, paddedState_mlen_toNat hfit]

/-- After INIT the host's PAD and HASH's own give the same state. -/
theorem exec_pad_startState (hf : s.fault = false) : exec .pad s.startState = .next (paddedState s) := by
  rw [exec_pad (by simpa using hf), padStep_startState hfit, finished_state]

/-- INIT, PAD, a CBLK for each block and ENC answer what HASH answers. -/
theorem runTransactions_hash (hf : s.fault = false) :
    runTransactions
      ([.cmdWrite 0x00000020#32, .cmdWrite 0x00000021#32] ++
        List.replicate ((s.mlen.toNat + (9 + padZeros s.mlen.toNat)) / 64) (.cmdWrite 0x00000022#32) ++
        [.cmdWrite 0x00000023#32]) s = exec .hash s := by
  obtain ⟨q, hblocks, hqf, hqv⟩ := cblkSteps_paddedState s
  have eblocks := runTransactions_cblks (n := (paddedState s).blockCount) (by simpa using hf) (paddedState_sv s)
    (by rw [State.blockCount, paddedState_blk, BitVec.toNat_ofNat]; omega) (encode .hash)
  rw [hblocks, finished_state, paddedState_blockCount hfit] at eblocks
  have eenc : exec .enc q = .next (q.putDigest (md5Encode q.st)) := by
    rw [exec_enc (hqf.trans hf), encStep_state hqv, finished_state]
  have ehash : exec .hash s = .next (q.putDigest (md5Encode q.st)) := by
    rw [exec_hash hf, hashSteps, padStep_startState hfit, finished_andThen, hblocks, finished_andThen, encStep_state hqv,
      finished_state]
  rw [List.append_assoc, List.cons_append, runTransactions_cmd _ (by decide) (exec_init hf), List.cons_append,
    runTransactions_cmd _ (by decide) (exec_pad_startState hfit hf), List.nil_append, runTransactions_append eblocks,
    runTransactions_cmd _ (by decide) eenc, runTransactions_nil, ehash]

/-- Without the CBLKs the digest is that of the initial constants. -/
theorem runTransactions_init_pad_enc (hf : s.fault = false) :
    ∃ t, runTransactions [.cmdWrite 0x00000020#32, .cmdWrite 0x00000021#32, .cmdWrite 0x00000023#32] s = .next t ∧
      t.fault = false ∧ t.dig = md5Encode iv := by
  have eenc : exec .enc (paddedState s) = .next ((paddedState s).putDigest (md5Encode iv)) := by
    rw [exec_enc (by simpa using hf), encStep_state (paddedState_sv s), finished_state, paddedState_st]
  refine ⟨(paddedState s).putDigest (md5Encode iv), ?_, by simpa using hf, rfl⟩
  rw [runTransactions_cmd _ (by decide) (exec_init hf),
    runTransactions_cmd _ (by decide) (exec_pad_startState hfit hf), runTransactions_cmd _ (by decide) eenc,
    runTransactions_nil]

end Fits

/-- Where the padding does not fit PAD faults, and the commands after it are ignored. -/
theorem runTransactions_hash_full {s : State} (hf : s.fault = false)
    (hfull : s.msgCap.toNat < s.mlen.toNat + (9 + padZeros s.mlen.toNat)) (n : Nat) :
    runTransactions
      ([.cmdWrite 0x00000020#32, .cmdWrite 0x00000021#32] ++ List.replicate n (.cmdWrite 0x00000022#32) ++
        [.cmdWrite 0x00000023#32]) s = .next (s.startState.raise .alloc 0x00000021#32) := by
  have epad : exec .pad s.startState = .next (s.startState.raise .alloc 0x00000021#32) := by
    rw [exec_pad (by simpa using hf), padStep_full (s := s.startState) hfull]
    rfl
  rw [List.append_assoc, List.cons_append, runTransactions_cmd _ (by decide) (exec_init hf), List.cons_append,
    runTransactions_cmd _ (by decide) epad, List.nil_append]
  refine runTransactions_ignored fun tr htr => ?_
  rcases List.mem_append.1 htr with h | h
  · rw [List.eq_of_mem_replicate h]
    exact perform_cmd_faulted (i := .cblk) (by decide) (by decide) rfl
  · rw [List.mem_singleton.1 h]
    exact perform_cmd_faulted (i := .enc) (by decide) (by decide) rfl

/-- Settles O46: HASH is made of the same sub-steps; after ALLOC the two differ in the word recorded. -/
theorem hashEqualsItsPrimitives : Obligations.HashEqualsItsPrimitives := by
  refine fun s hf => ⟨fun hfit => ⟨runTransactions_hash hfit hf, runTransactions_init_pad_enc hfit hf⟩,
    fun hfull n => ⟨_, runTransactions_hash_full hf hfull n, rfl, ?_⟩⟩
  rw [exec_hash hf, hashSteps_full hfull]
  rfl

end Sys2Proof.Machine
end

section
/-! PROOFS: the bounds of R43 after every run, and the block cursor (spec/10_state.md rules R25, R43). -/

namespace Sys2Proof.Machine

/-- A CBLK that does not fault leaves the cursor after a whole block of the message. -/
theorem exec_cblk_blk_le {s t : State} (e : exec .cblk s = .next t) (hs : s.fault = false) (ht : t.fault = false) :
    64 * t.blk.toNat ≤ t.mlen.toNat := by
  rw [exec_cblk hs] at e
  cases e
  rcases cblkStep_cases (encode .cblk) s with ⟨-, e⟩ | ⟨-, -, e⟩ | ⟨-, hb, e⟩ <;> rw [e] at ht ⊢
  · cases ht
  · cases ht
  · rw [finished_state, advance_blk_toNat _ hb]
    exact hb

/-- INIT, PAD, CBLK, MCLR: one block is compressed, then the store is emptied under the cursor. -/
theorem exists_run_cursor_above_mlen {cap : Word} (h : Config.LegalCapacity cap) :
    ∃ (ts : List Transaction) (t : State), runTransactions ts (State.resetWith cap) = .next t ∧
      t.sv = true ∧ t.mlen.toNat < 64 * t.blk.toNat := by
  have hfit : (State.resetWith cap).mlen.toNat + (9 + padZeros (State.resetWith cap).mlen.toNat) ≤
      (State.resetWith cap).msgCap.toNat := h
  obtain ⟨p, hp⟩ : ∃ p, p = paddedState (State.resetWith cap) := ⟨_, rfl⟩
  have hpf : p.fault = false := by rw [hp]; rfl
  have hpv : p.sv = true := by rw [hp]; rfl
  have hpb : p.blk.toNat = 0 := by rw [hp]; rfl
  have hblock : 64 * (p.blk.toNat + 1) ≤ p.mlen.toNat := by
    rw [hpb, hp, paddedState_mlen_toNat hfit, State.resetWith_mlen]
    decide
  have ecblk : exec .cblk p = .next (p.advance (md5Compress p.st p.block)) := by
    rw [exec_cblk hpf, cblkStep_block hpv hblock, finished_state]
  have hcursor := advance_blk_toNat (md5Compress p.st p.block) hblock
  refine ⟨[.cmdWrite 0x00000020#32, .cmdWrite 0x00000021#32, .cmdWrite 0x00000022#32, .cmdWrite 0x00000010#32],
    (p.advance (md5Compress p.st p.block)).emptyMessage, ?_, by simpa using hpv, ?_⟩
  · rw [runTransactions_cmd _ (by decide) (exec_init rfl), runTransactions_cmd _ (by decide) (exec_pad_startState hfit rfl),
      ← hp, runTransactions_cmd _ (by decide) ecblk, runTransactions_cmd _ (by decide) (exec_mclr (by simpa using hpf)),
      runTransactions_nil]
  · rw [State.emptyMessage_blk, State.emptyMessage_mlen, hcursor, hpb]
    decide

/-- Settles O53: the reset state meets the invariant, every run keeps it, and MCLR may follow CBLK. -/
theorem reachableStatesMeetTheBounds : Obligations.ReachableStatesMeetTheBounds := by
  intro cap hcap
  refine ⟨fun ts t e => ?_, exists_run_cursor_above_mlen hcap, fun _ _ e hs ht => exec_cblk_blk_le e hs ht⟩
  have hinv := runTransactions_inv (resetWith_inv hcap) e
  exact ⟨hinv.mlen_le, hinv.klen_le, hinv.cause_iff, hinv.dv_clear, hinv.blk_le⟩

end Sys2Proof.Machine
end

section
/-! PROOFS: what a transaction may change of the message store (spec/10_state.md rule R27, spec/20_memory.md rule R63). -/

namespace Sys2Proof.Machine

/-- What a command can do to the message store: nothing, append bytes that fit, change MLEN alone (MCLR), or reset it. -/
theorem exec_message_cases {i : Instr} {s t : State} (e : exec i s = .next t) :
    (t.msg = s.msg ∧ t.mlen = s.mlen) ∨
    (∃ bs, s.mlen.toNat + bs.length ≤ s.msgCap.toNat ∧ t.msg = (s.appended bs).msg ∧ t.mlen = (s.appended bs).mlen) ∨
    (i = .mclr ∧ t.msg = s.msg) ∨ i = .rst := by
  rcases exec_cases e with ⟨-, -, rfl⟩ | ⟨rfl, -⟩ | ⟨-, e⟩
  · exact .inl ⟨rfl, rfl⟩
  · exact .inr (.inr (.inr rfl))
  rcases e with ⟨rfl, rfl⟩ | ⟨b, -, hfit, rfl⟩ | ⟨b, -, -, rfl⟩ | ⟨-, rfl⟩ | ⟨b, -, -, rfl⟩ | ⟨b, -, -, rfl⟩ | ⟨-, rfl⟩ |
    ⟨-, hfit, rfl⟩ | ⟨-, -, rfl⟩ | ⟨-, -, rfl⟩ | ⟨-, -, -, rfl⟩ | ⟨-, -, -, rfl⟩ | ⟨-, -, rfl⟩ | ⟨-, -, rfl⟩ |
    ⟨-, hfit, rfl⟩ | ⟨-, -, rfl⟩ | ⟨-, rfl⟩
  · exact .inr (.inr (.inl ⟨rfl, rfl⟩))
  · exact .inr (.inl ⟨[b], hfit, rfl, rfl⟩)
  · exact .inl ⟨rfl, rfl⟩
  · exact .inl ⟨rfl, rfl⟩
  · exact .inl ⟨rfl, rfl⟩
  · exact .inl ⟨rfl, rfl⟩
  · exact .inl ⟨rfl, rfl⟩
  · exact .inr (.inl ⟨padTail s.mlen.toNat, by simpa using hfit, rfl, rfl⟩)
  · exact .inl ⟨rfl, rfl⟩
  · exact .inl ⟨rfl, rfl⟩
  · exact .inl ⟨rfl, rfl⟩
  · exact .inl ⟨State.advance_msg .., State.advance_mlen ..⟩
  · exact .inl ⟨rfl, rfl⟩
  · exact .inl ⟨rfl, rfl⟩
  · exact .inr (.inl ⟨padTail s.mlen.toNat, by simpa using hfit, hashedState_msg s, hashedState_mlen s⟩)
  · exact .inl ⟨rfl, rfl⟩
  · exact .inl ⟨hmacState_msg s, hmacState_mlen s⟩

/-- What a transaction can do to the message store. -/
theorem perform_message_cases {tr : Transaction} {s t : State} (e : perform tr s = .next t) :
    (t.msg = s.msg ∧ t.mlen = s.mlen) ∨
    (∃ bs, s.mlen.toNat + bs.length ≤ s.msgCap.toNat ∧ t.msg = (s.appended bs).msg ∧ t.mlen = (s.appended bs).mlen) ∨
    (Transaction.writesCommand tr (encode .mclr) ∧ t.msg = s.msg) ∨ Transaction.resets tr := by
  rcases perform_next_cases e with ⟨i, hw, e⟩ | ⟨w, -, -, rfl⟩ | ⟨v, rfl⟩ | rfl | ⟨v, rfl⟩ | ⟨hr, -⟩
  · rcases exec_message_cases e with h | h | ⟨rfl, h⟩ | rfl
    · exact .inl h
    · exact .inr (.inl h)
    · exact .inr (.inr (.inl ⟨hw, h⟩))
    · exact .inr (.inr (.inr (.inr hw)))
  · exact .inl ⟨rfl, rfl⟩
  · exact .inl ⟨rfl, rfl⟩
  · exact .inl ⟨rfl, rfl⟩
  · exact .inl ⟨rfl, rfl⟩
  · exact .inr (.inr (.inr (.inl hr)))

/-- Settles O54: bytes are appended at MLEN and only where they fit, so MLEN does not wrap and no byte below it is written. -/
theorem theMessageStoreOnlyGrows : Obligations.TheMessageStoreOnlyGrows := by
  intro s t tr e
  rcases perform_message_cases e with ⟨hmsg, hmlen⟩ | ⟨bs, hfit, hmsg, hmlen⟩ | ⟨hw, hmsg⟩ | hr
  · exact ⟨fun hlt => absurd hlt (hmlen ▸ Nat.lt_irrefl _), fun _ _ hne => absurd (by rw [hmsg]) hne⟩
  · refine ⟨fun hlt => ?_, fun a ha hne => ?_⟩
    · rw [hmlen, appended_mlen_toNat hfit] at hlt
      omega
    · rw [hmsg, State.appended_msg, Memory.read_writeBytes_other _ (.inl ha)] at hne
      exact absurd rfl hne
  · exact ⟨fun _ => .inr hw, fun _ _ hne => absurd (by rw [hmsg]) hne⟩
  · exact ⟨fun _ => .inl hr, fun _ _ _ => hr⟩

end Sys2Proof.Machine
end

section
/-! PROOFS: which commands touch A to D and the flags (spec/10_state.md rules R22, R24). -/

namespace Sys2Proof.Machine

/-! A to D and SV. -/

/-- A finished append leaves A to D and SV; the other outcome is a fault. -/
theorem appendOrRaise_words {w : Word} {bs : List Byte} {s : State} (h : (appendOrRaise w bs s).state.fault = false) :
    (appendOrRaise w bs s).state.st = s.st ∧ (appendOrRaise w bs s).state.sv = s.sv := by
  rcases appendOrRaise_cases w bs s with ⟨-, e⟩ | ⟨-, e⟩ <;> rw [e] at h ⊢
  · exact ⟨rfl, rfl⟩
  · cases h

/-- A finished CBLK finds a valid state and leaves one. -/
theorem cblkStep_sv {w : Word} {s : State} (h : (cblkStep w s).state.fault = false) :
    s.sv = true ∧ (cblkStep w s).state.sv = true := by
  rcases cblkStep_cases w s with ⟨-, e⟩ | ⟨-, -, e⟩ | ⟨hv, -, e⟩ <;> rw [e] at h ⊢
  · cases h
  · cases h
  · exact ⟨hv, hv⟩

/-- A finished ENC finds a valid state and consumes it; the storage of A to D stays. -/
theorem encStep_words {w : Word} {s : State} (h : (encStep w s).state.fault = false) :
    s.sv = true ∧ (encStep w s).state.st = s.st ∧ (encStep w s).state.sv = false := by
  rcases encStep_cases w s with ⟨-, e⟩ | ⟨hv, e⟩ <;> rw [e] at h ⊢
  · cases h
  · exact ⟨hv, rfl, rfl⟩

/-- A finished HASH ends with ENC. -/
theorem hashSteps_sv {w : Word} {s : State} (h : (hashSteps w s).state.fault = false) :
    (hashSteps w s).state.sv = false := by
  rcases hashSteps_cases w s with ⟨-, e⟩ | ⟨-, e⟩ <;> rw [e] at h ⊢
  · exact hashedState_sv s
  · cases h

/-- HASH writes A to D before it reads them. -/
theorem hashSteps_withWords (w : Word) (s : State) (q : DigestState) :
    (hashSteps w { s with st := q }).state = (hashSteps w s).state := by
  rcases hashSteps_cases w s with ⟨h, e⟩ | ⟨h, e⟩ <;> rw [e]
  · rw [hashSteps_fits (s := { s with st := q }) h]
    rfl
  · rw [hashSteps_full (s := { s with st := q }) h]
    rfl

/-- R36: the host cannot write A to D, nor SV, but through a command. -/
theorem regWrite_words {n : Fin 64} {v : Word} {s t : State} (hn : n ≠ 0) (e : regWrite n v s = .next t) :
    t.st = s.st ∧ t.sv = s.sv := by
  by_cases h6 : n = 6
  · subst h6
    cases e
    exact ⟨rfl, rfl⟩
  · rw [regWrite_other hn h6] at e
    cases e
    exact ⟨rfl, rfl⟩

/-- Settles O55: command by command; INIT, HASH and HMAC write A to D before they read them. -/
theorem theStateIsTouchedOnlyAsTabled : Obligations.TheStateIsTouchedOnlyAsTabled := by
  refine ⟨fun s t i hs e ht => ?_, fun s q hs => ⟨?_, ?_, ?_⟩, fun s t n v hn e => regWrite_words hn e⟩
  · cases i with
    | rst => cases e; rfl
    | mclr => rw [exec_mclr hs] at e; cases e; exact ⟨rfl, rfl⟩
    | mapp b => rw [exec_mapp hs] at e; cases e; exact appendOrRaise_words ht
    | kclr => rw [exec_kclr hs] at e; cases e; exact ⟨rfl, rfl⟩
    | kapp b =>
      rw [exec_kapp hs] at e
      cases e
      by_cases hk : s.klen.toNat < 64
      · rw [if_pos hk]; exact ⟨rfl, rfl⟩
      · rw [if_neg hk]; exact ⟨rfl, rfl⟩
    | init => rw [exec_init hs] at e; cases e; exact ⟨rfl, rfl⟩
    | pad => rw [exec_pad hs] at e; cases e; exact appendOrRaise_words ht
    | cblk => rw [exec_cblk hs] at e; cases e; exact cblkStep_sv ht
    | enc => rw [exec_enc hs] at e; cases e; exact encStep_words ht
    | hash => rw [exec_hash hs] at e; cases e; exact hashSteps_sv ht
    | hmac => rw [exec_hmac hs] at e; cases e; exact hmacState_sv s
  · rw [exec_init hs, exec_init (s := { s with st := q }) hs]
    rfl
  · rw [exec_hash hs, exec_hash (s := { s with st := q }) hs, hashSteps_withWords]
  · rw [exec_hmac hs, exec_hmac (s := { s with st := q }) hs]
    rfl

/-! The flags. -/

/-- R24 as cases: a command changes no flag, resets them, sets SV (INIT), ends a digest (ENC, HASH, HMAC), or faults, where only
HASH sets SV. -/
theorem exec_flags_cases {i : Instr} {s t : State} (e : exec i s = .next t) :
    (t.sv = s.sv ∧ t.dv = s.dv ∧ t.fault = s.fault) ∨ (i = .rst ∧ t.sv = false ∧ t.dv = false ∧ t.fault = false) ∨
    (i = .init ∧ t.sv = true ∧ t.dv = s.dv ∧ t.fault = s.fault) ∨
    ((i = .enc ∨ i = .hash ∨ i = .hmac) ∧ t.sv = false ∧ t.dv = true ∧ t.fault = s.fault) ∨
    (s.fault = false ∧ t.fault = true ∧ t.dv = false ∧ t.fcmd = encode i ∧ t.cause ≠ none ∧
      (t.sv = s.sv ∨ (i = .hash ∧ t.sv = true))) := by
  rcases exec_cases e with ⟨-, -, rfl⟩ | ⟨rfl, rfl⟩ | ⟨hf, e⟩
  · exact .inl ⟨rfl, rfl, rfl⟩
  · exact .inr (.inl ⟨rfl, rfl, rfl, rfl⟩)
  rcases e with ⟨-, rfl⟩ | ⟨b, -, -, rfl⟩ | ⟨b, rfl, -, rfl⟩ | ⟨-, rfl⟩ | ⟨b, -, -, rfl⟩ | ⟨b, -, -, rfl⟩ | ⟨rfl, rfl⟩ |
    ⟨-, -, rfl⟩ | ⟨rfl, -, rfl⟩ | ⟨rfl, -, rfl⟩ | ⟨rfl, -, -, rfl⟩ | ⟨-, -, -, rfl⟩ | ⟨rfl, -, rfl⟩ | ⟨rfl, -, rfl⟩ |
    ⟨rfl, -, rfl⟩ | ⟨rfl, -, rfl⟩ | ⟨rfl, rfl⟩ <;> simp [hf]

/-- R24 for a transaction: the commands' cases, and the ILLEGAL fault of an illegal word. -/
theorem perform_flags_cases {tr : Transaction} {s t : State} (e : perform tr s = .next t) :
    (t.sv = s.sv ∧ t.dv = s.dv ∧ t.fault = s.fault) ∨
    (Transaction.resets tr ∧ t.sv = false ∧ t.dv = false ∧ t.fault = false) ∨
    (Transaction.writesCommand tr 0x00000020#32 ∧ t.sv = true ∧ t.dv = s.dv ∧ t.fault = s.fault) ∨
    ((Transaction.writesCommand tr 0x00000023#32 ∨ Transaction.writesCommand tr 0x00000030#32 ∨
      Transaction.writesCommand tr 0x00000031#32) ∧ t.sv = false ∧ t.dv = true ∧ t.fault = s.fault) ∨
    (∃ w, Transaction.writesCommand tr w ∧ s.fault = false ∧ t.fault = true ∧ t.dv = false ∧ t.fcmd = w ∧
      t.cause ≠ none ∧ (t.sv = s.sv ∨ (w = 0x00000030#32 ∧ t.sv = true))) := by
  rcases perform_next_cases e with ⟨i, hw, e⟩ | ⟨w, hw, hf, rfl⟩ | ⟨v, rfl⟩ | rfl | ⟨v, rfl⟩ | ⟨hr, rfl⟩
  · rcases exec_flags_cases e with h | ⟨rfl, h⟩ | ⟨rfl, h⟩ | ⟨hi, h⟩ | ⟨hf, htf, hdv, hfcmd, hcause, hsv⟩
    · exact .inl h
    · exact .inr (.inl ⟨.inr hw, h⟩)
    · exact .inr (.inr (.inl ⟨hw, h⟩))
    · refine .inr (.inr (.inr (.inl ⟨?_, h⟩)))
      rcases hi with rfl | rfl | rfl
      · exact .inl hw
      · exact .inr (.inl hw)
      · exact .inr (.inr hw)
    · refine .inr (.inr (.inr (.inr ⟨_, hw, hf, htf, hdv, hfcmd, hcause, hsv.imp_right fun h => ?_⟩)))
      obtain ⟨rfl, h⟩ := h
      exact ⟨rfl, h⟩
  · exact .inr (.inr (.inr (.inr ⟨w, hw, hf, rfl, rfl, rfl, by simp, .inl rfl⟩)))
  · exact .inl ⟨rfl, rfl, rfl⟩
  · exact .inl ⟨rfl, rfl, rfl⟩
  · exact .inl ⟨rfl, rfl, rfl⟩
  · exact .inr (.inl ⟨.inl hr, rfl, rfl, rfl⟩)

/-- Settles O56: each clause names the cases in which its flag changes. -/
theorem flagsChangeOnlyAsTabled : Obligations.FlagsChangeOnlyAsTabled := by
  intro s t tr e
  rcases perform_flags_cases e with ⟨hsv, hdv, hf⟩ | ⟨hr, hsv, hdv, hf⟩ | ⟨hw, hsv, hdv, hf⟩ | ⟨hw, hsv, hdv, hf⟩ |
    ⟨w, hw, hs, ht, hdv, hfcmd, hcause, hsv⟩
  · simp +contextual [hsv, hdv, hf]
  · simp [hr, hsv, hdv, hf]
  · simp +contextual [hw, hsv, hdv, hf]
  · simp +contextual [hw, or_assoc.symm, hsv, hdv, hf]
  · have hset : s.sv = false → t.sv = true → Transaction.writesCommand tr 0x00000030#32 := by
      rcases hsv with h | ⟨rfl, -⟩
      · simp +contextual [h]
      · exact fun _ _ => hw
    have hclear : s.sv = true → t.sv = true := by
      rcases hsv with h | ⟨-, h⟩
      · simp [h]
      · exact fun _ => h
    refine ⟨fun h h' => .inr ⟨hset h h', ht⟩, ?_, ?_, ?_, ?_, ?_⟩
    · simp +contextual [hclear]
    · simp [hdv]
    · simp [hs, ht]
    · exact fun _ _ => ⟨w, hw, hfcmd, hcause⟩
    · simp [hs]

end Sys2Proof.Machine
end

section
/-! PROOFS: a run of the machine over its pending transactions (spec/20_memory.md rule R71, spec/43_system.md rules R203,
R205). -/

namespace Sys2Proof.Machine

/-- R71: with a word that decodes at the head of the pending transactions, a step is that command. -/
theorem step_pending_cmd {s : State} {w : Word} {i : Instr} {rest : List Transaction}
    (h : s.pending = .cmdWrite w :: rest) (hd : decode w = .ok i) : step s = exec i (s.setPending rest) :=
  (step_pending h).trans (cmdWrite_legal hd _)

/-- Settles O6: the head of the pending transactions is performed in the state that holds the others. -/
theorem stepPerformsTheNextTransaction : Obligations.StepPerformsTheNextTransaction :=
  ⟨fun _ _ _ _ h hd => step_pending_cmd h hd, fun _ _ _ h => step_pending h, fun _ h => step_idle h⟩

/-- No transaction adds to the list still pending or takes from it. -/
theorem perform_pending {tr : Transaction} {s t : State} (e : perform tr s = .next t) : t.pending = s.pending := by
  have hself : t.setPending s.pending = t := Host.Outcome.next.inj ((perform_setPending s.pending e).symm.trans e)
  rw [← hself, State.setPending_pending]

/-- A step with `tr` at the head has the effect of `tr` and leaves `ts` pending. -/
theorem step_setPending_cons {tr : Transaction} {s t : State} (ts : List Transaction) (e : perform tr s = .next t) :
    step (s.setPending (tr :: ts)) = .next (t.setPending ts) :=
  (step_pending rfl).trans (perform_setPending (s := s) ts e)

/-- R205: as many steps as transactions are pending perform them one after the other. -/
theorem core_run_setPending (ts : List Transaction) {s : State} (h : s.pending = []) :
    Host.Core.run Sys2Proof.core ts.length (s.setPending ts) = runTransactions ts s := by
  induction ts generalizing s with
  | nil =>
    have hs : s.setPending [] = s := h ▸ rfl
    rw [hs]
    rfl
  | cons tr ts ih =>
    obtain ⟨t, e⟩ := perform_next tr s
    rw [runTransactions_cons e]
    exact (core_run_succ _ (step_setPending_cons ts e)).trans (ih ((perform_pending e).trans h))

/-- Settles O13, by induction on the list: no transaction looks at the ones still pending, and none adds one. -/
theorem runIsTheFoldOfTransactions : Obligations.RunIsTheFoldOfTransactions :=
  fun ts s => core_run_setPending ts (State.setPending_pending s [])

end Sys2Proof.Machine
end

section
/-! PROOFS: the bridge from a byte-addressed bus (spec/10_state.md rule R31, spec/20_memory.md rule R66). -/

namespace Sys2Proof.Machine

/-- R31, R66: the 32-bit access at offset `4n` names register `n`. -/
theorem busRegister_aligned (n : Fin 64) : busRegister (4 * n.val) 4 = some n := by
  simp [busRegister]

/-- R66: an access of another width, alignment or offset names no register. -/
theorem busRegister_eq_none {offset width : Nat} (h : width ≠ 4 ∨ offset % 4 ≠ 0 ∨ 256 ≤ offset) :
    busRegister offset width = none := by
  have h' : ¬(width = 4 ∧ offset % 4 = 0 ∧ offset / 4 < 64) := by omega
  exact dif_neg h'

section Access
variable {offset width : Nat}

theorem performBus_read {n : Fin 64} (h : busRegister offset width = some n) (s : State) :
    performBus (.read offset width) s = perform (.regRead n) s := by
  simp [performBus, bridge, h]

theorem performBus_write {n : Fin 64} (h : busRegister offset width = some n) (v : Word) (s : State) :
    performBus (.write offset width v) s = perform (.regWrite n v) s := by
  simp [performBus, bridge, h]

theorem performBus_read_refused (h : busRegister offset width = none) (s : State) :
    performBus (.read offset width) s = .refused .noSuchPortAccess := by
  simp [performBus, bridge, h]

theorem performBus_write_refused (h : busRegister offset width = none) (v : Word) (s : State) :
    performBus (.write offset width v) s = .refused .noSuchPortAccess := by
  simp [performBus, bridge, h]

end Access

/-- Settles O12: an access is bridged when its offset and width name a register, and refused otherwise. -/
theorem busAccessesAreBridgedOrRefused : Obligations.BusAccessesAreBridgedOrRefused := by
  refine fun s v offset width => ⟨?_, fun h => ?_⟩
  · rintro n rfl rfl
    have hn := busRegister_aligned n
    exact ⟨performBus_read hn s, performBus_write hn v s⟩
  · have hnone := busRegister_eq_none h
    exact ⟨performBus_read_refused hnone s, performBus_write_refused hnone v s⟩

end Sys2Proof.Machine
end

section
/-! PROOFS: the command words (spec/30_encoding.md rules R90 to R96): a word is a command exactly when its three fields are
those of a command, and the rows of the opcode table say the same by masks. -/

namespace Sys2Proof.Machine

/-! The fields of a word. -/

theorem word_eq_iff_fields {v w : Word} :
    v = w ↔ rsvField v = rsvField w ∧ opField v = opField w ∧ imm8Field v = imm8Field w := by
  refine ⟨fun h => h ▸ ⟨rfl, rfl, rfl⟩, fun ⟨hrsv, hop, himm⟩ => BitVec.eq_of_toNat_eq ?_⟩
  rw [word_toNat, word_toNat w, hrsv, hop, himm]

@[simp] theorem rsvField_and (v w : Word) : rsvField (v &&& w) = rsvField v &&& rsvField w := BitVec.extractLsb'_and

@[simp] theorem opField_and (v w : Word) : opField (v &&& w) = opField v &&& opField w := BitVec.extractLsb'_and

@[simp] theorem imm8Field_and (v w : Word) : imm8Field (v &&& w) = imm8Field v &&& imm8Field w := BitVec.extractLsb'_and

/-! The fields of a command (R93). -/

theorem encodedFields (i : Instr) : Laws.EncodedFields.Statement i := by
  cases i with
  | rst => exact Laws.EncodedFields.rst
  | mclr => exact Laws.EncodedFields.mclr
  | mapp b => exact Laws.EncodedFields.mapp b
  | kclr => exact Laws.EncodedFields.kclr
  | kapp b => exact Laws.EncodedFields.kapp b
  | init => exact Laws.EncodedFields.init
  | pad => exact Laws.EncodedFields.pad
  | cblk => exact Laws.EncodedFields.cblk
  | enc => exact Laws.EncodedFields.enc
  | hash => exact Laws.EncodedFields.hash
  | hmac => exact Laws.EncodedFields.hmac

theorem immediate_eq_zero {i : Instr} (h : i.format = .N) : immediate i = 0#8 := by
  obtain ⟨-, -, -, -, himm⟩ := encodedFields i
  exact himm h

theorem format_eq_of_opcode_eq {i j : Instr} (h : opcode i = opcode j) : i.format = j.format := by
  obtain ⟨-, -, -, hi, -⟩ := encodedFields i
  obtain ⟨-, -, -, hj, -⟩ := encodedFields j
  rw [h, hj] at hi
  exact (Option.some.inj hi).symm

theorem format_eq_N_iff (i : Instr) : i.format = .N ↔ (opcode i).toNat ∉ [0x11, 0x19] := by
  cases i <;> simp [Instr.format, opcode]

/-- R93: a command for each opcode, in the order of the table. -/
def rowCommands : List Instr := [.rst, .mclr, .mapp 0#8, .kclr, .kapp 0#8, .init, .pad, .cblk, .enc, .hash, .hmac]

theorem exists_opcode_iff (b : Byte) :
    (∃ i, b = opcode i) ↔ b.toNat ∈ [0x01, 0x10, 0x11, 0x18, 0x19, 0x20, 0x21, 0x22, 0x23, 0x30, 0x31] := by
  constructor
  · rintro ⟨i, rfl⟩
    cases i <;> simp [opcode]
  · intro h
    have hmem : b ∈ rowCommands.map opcode :=
      (List.mem_map_of_injective BitVec.toNat_injective).1 h
    obtain ⟨i, -, rfl⟩ := List.mem_map.1 hmem
    exact ⟨i, rfl⟩

/-- R91: every immediate that the format of an opcode allows belongs to a command with that opcode. -/
theorem exists_command_with {i : Instr} {b : Byte} (h : i.format = .N → b = 0#8) :
    ∃ j, opcode j = opcode i ∧ immediate j = b := by
  cases i with
  | mapp _ => exact ⟨.mapp b, rfl, rfl⟩
  | kapp _ => exact ⟨.kapp b, rfl, rfl⟩
  | _ => exact ⟨_, rfl, (h rfl).symm⟩

/-! Decoding. -/

/-- R96: the converse of `fields_of_decode`. -/
theorem decode_of_fields {w : Word} {i : Instr} (hrsv : rsvField w = 0#16) (hop : opField w = opcode i)
    (himm : imm8Field w = immediate i) : decode w = .ok i := by
  unfold decode
  rw [if_neg (not_not.2 hrsv), hop]
  cases i with
  | mapp b => exact congrArg (fun b => Except.ok (Instr.mapp b)) himm
  | kapp b => exact congrArg (fun b => Except.ok (Instr.kapp b)) himm
  | _ => exact if_pos himm

theorem decode_encode (i : Instr) : decode (encode i) = .ok i := by
  obtain ⟨hrsv, hop, himm, -, -⟩ := encodedFields i
  exact decode_of_fields hrsv hop himm

theorem encode_injective : Function.Injective encode := fun i j h =>
  Except.ok.inj ((decode_encode i).symm.trans (h ▸ decode_encode j))

theorem decode_eq_ok_iff {w : Word} {i : Instr} : decode w = .ok i ↔ encode i = w :=
  ⟨fun h => (eq_encode_of_decode h).symm, fun h => h ▸ decode_encode i⟩

theorem exists_decode_eq_error {w : Word} (h : ∀ i, decode w ≠ .ok i) : ∃ r, decode w = .error r := by
  cases hd : decode w with
  | ok i => exact absurd hd (h i)
  | error r => exact ⟨r, rfl⟩

theorem decode_ne_ok {w : Word} {r : Reject} (h : decode w = .error r) (i : Instr) : decode w ≠ .ok i := by
  simp [h]

/-- Settles O1: decoding reads the three fields that encoding writes, and no two words have the same three. -/
theorem decodeAndEncodeAgree : Obligations.DecodeAndEncodeAgree :=
  ⟨decode_encode, fun _ _ h => decode_eq_ok_iff.1 h,
    fun _ h => exists_decode_eq_error fun i hd => h i (decode_eq_ok_iff.1 hd), fun _ => rfl, fun _ => rfl, by decide⟩

/-- Settles O3, by running the decoder on each word. -/
theorem writtenWordsDecode : Obligations.WrittenWordsDecode := by
  unfold Obligations.WrittenWordsDecode
  decide

/-! Legal words (R94). -/

/-- R91, R94: the word has the opcode of the command, and an immediate only where the format has one. -/
def FitsCommand (w : Word) (i : Instr) : Prop :=
  rsvField w = 0#16 ∧ opField w = opcode i ∧ (i.format = .N → imm8Field w = 0#8)

theorem fitsCommand_of_decode {w : Word} {i : Instr} (h : decode w = .ok i) : FitsCommand w i := by
  obtain ⟨hrsv, hop, himm⟩ := fields_of_decode h
  exact ⟨hrsv, hop, fun hN => himm.trans (immediate_eq_zero hN)⟩

theorem legal_iff_fitsCommand {w : Word} : (∃ i, decode w = .ok i) ↔ ∃ i, FitsCommand w i := by
  constructor
  · rintro ⟨i, h⟩
    exact ⟨i, fitsCommand_of_decode h⟩
  · rintro ⟨i, hrsv, hop, hN⟩
    obtain ⟨j, hj, himm⟩ := exists_command_with hN
    exact ⟨j, decode_of_fields hrsv (hop.trans hj.symm) himm.symm⟩

/-- R94, by the numbers of the opcodes. -/
theorem legal_iff (w : Word) : (∃ i, decode w = .ok i) ↔
    rsvField w = 0#16 ∧
    (opField w).toNat ∈ [0x01, 0x10, 0x11, 0x18, 0x19, 0x20, 0x21, 0x22, 0x23, 0x30, 0x31] ∧
    ((opField w).toNat ∉ [0x11, 0x19] → imm8Field w = 0#8) := by
  rw [legal_iff_fitsCommand, ← exists_opcode_iff]
  constructor
  · rintro ⟨i, hrsv, hop, hN⟩
    rw [format_eq_N_iff, ← hop] at hN
    exact ⟨hrsv, ⟨i, hop⟩, hN⟩
  · rintro ⟨hrsv, ⟨i, hop⟩, hN⟩
    rw [hop, ← format_eq_N_iff] at hN
    exact ⟨i, hrsv, hop, hN⟩

/-- The 256 bytes. -/
def allBytes : List Byte := (List.finRange 256).map BitVec.ofFin

theorem mem_allBytes (b : Byte) : b ∈ allBytes := List.mem_map.2 ⟨b.toFin, List.mem_finRange _, rfl⟩

theorem allBytes_nodup : allBytes.Nodup := (List.nodup_finRange 256).map fun _ _ => BitVec.ofFin.inj

/-- The nine commands of format N, then the two of format B with every byte. -/
def allCommands : List Instr :=
  [.rst, .mclr, .kclr, .init, .pad, .cblk, .enc, .hash, .hmac] ++ (allBytes.map .mapp ++ allBytes.map .kapp)

theorem allCommands_length : allCommands.length = 521 := by
  simp [allCommands, allBytes]

theorem mem_allCommands (i : Instr) : i ∈ allCommands := by
  cases i <;> simp [allCommands, mem_allBytes]

theorem allCommands_nodup : allCommands.Nodup := by
  have hmapp : (allBytes.map Instr.mapp).Nodup := allBytes_nodup.map fun _ _ => Instr.mapp.inj
  have hkapp : (allBytes.map Instr.kapp).Nodup := allBytes_nodup.map fun _ _ => Instr.kapp.inj
  refine List.Nodup.append (by decide) (hmapp.append hkapp ?_) ?_ <;> simp [List.disjoint_left]

/-- R94: the legal words are the words of the commands. -/
theorem mem_map_encode_iff (w : Word) : w ∈ allCommands.map encode ↔ ∃ i, decode w = .ok i := by
  simp [mem_allCommands, decode_eq_ok_iff]

/-- Settles O2: the fields of a word decide whether it is legal, and the legal words are listed by their commands. -/
theorem legalWordsAreExactlyThese521 : Obligations.LegalWordsAreExactlyThese521 := by
  refine ⟨legal_iff, ⟨allCommands.map encode, allCommands_nodup.map encode_injective, ?_, mem_map_encode_iff⟩, ?_,
    decode_ne_ok (r := .unknownOpcode) (by decide), decode_ne_ok (r := .reservedBits) (by decide),
    decode_ne_ok (r := .immediateNotZero) (by decide)⟩
  · rw [List.length_map, allCommands_length]
  · intro s w hs h
    obtain ⟨r, hr⟩ := exists_decode_eq_error h
    exact cmdWrite_illegal hr hs

/-! The opcode table (R91). -/

/-- The row of a command: every bit is compared but the immediate of format B. -/
def tableRow (i : Instr) : OpcodeRow where
  mnemonic := mnemonic i
  pattern := (opcode i).zeroExtend 32
  mask := match i.format with
    | .N => 0xFFFFFFFF#32
    | .B => 0xFFFF00FF#32

/-- The model's table is that of the command rows. -/
theorem opcodeTable_eq : opcodeTable = rowCommands.map tableRow := by decide

theorem fields_zeroExtend (b : Byte) :
    rsvField (b.zeroExtend 32) = 0#16 ∧ opField (b.zeroExtend 32) = b ∧ imm8Field (b.zeroExtend 32) = 0#8 := by
  revert b
  decide

/-- Masking acts on the three fields apart: it keeps them all in format N and drops the immediate in format B. -/
theorem tableRow_fits_iff (i : Instr) (w : Word) : (tableRow i).fits w = true ↔ FitsCommand w i := by
  obtain ⟨hrsv, hop, himm⟩ := fields_zeroExtend (opcode i)
  rw [OpcodeRow.fits, beq_iff_eq, word_eq_iff_fields, FitsCommand]
  cases hi : i.format with
  | N =>
    have hmask : rsvField 0xFFFFFFFF#32 = BitVec.allOnes 16 ∧ opField 0xFFFFFFFF#32 = BitVec.allOnes 8 ∧
        imm8Field 0xFFFFFFFF#32 = BitVec.allOnes 8 := by decide
    simp [tableRow, hi, hmask, hrsv, hop, himm, -BitVec.reduceAllOnes]
  | B =>
    have hmask : rsvField 0xFFFF00FF#32 = BitVec.allOnes 16 ∧ opField 0xFFFF00FF#32 = BitVec.allOnes 8 ∧
        imm8Field 0xFFFF00FF#32 = 0x00#8 := by decide
    simp [tableRow, hi, hmask, hrsv, hop, himm, -BitVec.reduceAllOnes]

/-- A legal word fits the rows that have the opcode of its command. -/
theorem tableRow_fits_iff_opcode {w : Word} {j : Instr} (h : decode w = .ok j) (i : Instr) :
    (tableRow i).fits w = true ↔ opcode i = opcode j := by
  obtain ⟨hrsv, hop, hN⟩ := fitsCommand_of_decode h
  rw [tableRow_fits_iff]
  constructor
  · rintro ⟨-, hi, -⟩
    exact hi.symm.trans hop
  · exact fun e => ⟨hrsv, hop.trans e.symm, fun hi => hN (format_eq_of_opcode_eq e ▸ hi)⟩

/-- R93: the rows have different opcodes. -/
theorem rowCommands_filter_opcode (j : Instr) :
    (rowCommands.filter fun i => opcode i == opcode j).map mnemonic = [mnemonic j] := by
  cases j <;> rfl

/-- Settles O4: a row fits a word when their opcodes agree and the word is legal. -/
theorem opcodeTableRowsDoNotOverlap : Obligations.OpcodeTableRowsDoNotOverlap := by
  refine ⟨fun w j h => ?_, fun w r h => ?_⟩
  · have hfits : ∀ i ∈ rowCommands, (tableRow i).fits w = (opcode i == opcode j) := fun i _ => by
      rw [Bool.eq_iff_iff, tableRow_fits_iff_opcode h, beq_iff_eq]
    rw [opcodeTable_eq, List.filter_map, List.map_map]
    exact (congrArg _ (List.filter_congr hfits)).trans (rowCommands_filter_opcode j)
  · rw [opcodeTable_eq, List.filter_eq_nil_iff]
    intro row hrow hfits
    obtain ⟨i, -, rfl⟩ := List.mem_map.1 hrow
    obtain ⟨j, hj⟩ := legal_iff_fitsCommand.2 ⟨i, (tableRow_fits_iff i w).1 hfits⟩
    exact decode_ne_ok h j hj

end Sys2Proof.Machine
end

section
/-! PROOFS: worked lines of host programs (spec/30_encoding.md rules R98, R99). -/

namespace Sys2Proof.Machine

/-- Settles O59, by running the assembler on each program. -/
theorem programLinesExpand : Obligations.ProgramLinesExpand := by
  unfold Obligations.ProgramLinesExpand
  decide

end Sys2Proof.Machine
end

section
/-! PROOFS: the store commands (spec/40_store_commands.md rules R120 to R123). -/

namespace Sys2Proof.Machine

/-! The message store. -/

/-- R121: below capacity MAPP appends its byte. -/
theorem exec_mapp_fits {s : State} (hf : s.fault = false) (h : s.mlen.toNat < s.msgCap.toNat) (b : Byte) :
    exec (.mapp b) s = .next (s.appended [b]) := by
  rw [exec_mapp hf, appendOrRaise_fits (bs := [b]) h, finished_state]

/-- R121: at capacity MAPP is fault entry for ALLOC. -/
theorem exec_mapp_full {s : State} (hf : s.fault = false) (h : s.msgCap.toNat ≤ s.mlen.toNat) (b : Byte) :
    exec (.mapp b) s = .next (s.raise .alloc (encode (.mapp b))) := by
  rw [exec_mapp hf, appendOrRaise_full (Nat.lt_succ_of_le h), raised_state]

/-- Where one byte fits, appending it and then the others is one append: MLEN does not wrap between them. -/
theorem appended_cons {s : State} (h : s.mlen.toNat < s.msgCap.toNat) (b : Byte) (bs : List Byte) :
    s.appended (b :: bs) = (s.appended [b]).appended bs := by
  have hlen : (s.appended [b]).mlen.toNat = s.mlen.toNat + 1 := appended_mlen_toNat h
  have hmlen : s.mlen + BitVec.ofNat 32 (b :: bs).length = s.mlen + 1#32 + BitVec.ofNat 32 bs.length := by
    rw [List.length_cons, Nat.add_comm, BitVec.ofNat_add, BitVec.add_assoc]
  rw [State.appended, State.appended, hlen, hmlen]
  rfl

/-- R121, R207: one MAPP per byte of a sequence that fits is one append of the sequence. -/
theorem runTransactions_loadMessage {bs : List Byte} {s : State} (hf : s.fault = false)
    (h : s.mlen.toNat + bs.length ≤ s.msgCap.toNat) : runTransactions (loadMessage bs) s = .next (s.appended bs) := by
  induction bs generalizing s with
  | nil => simp [loadMessage, State.appended, Memory.writeBytes]
  | cons b bs ih =>
    rw [List.length_cons] at h
    have hb : s.mlen.toNat < s.msgCap.toNat := by omega
    have hlen : (s.appended [b]).mlen.toNat = s.mlen.toNat + 1 := appended_mlen_toNat hb
    have hrest : (s.appended [b]).mlen.toNat + bs.length ≤ (s.appended [b]).msgCap.toNat := by
      rw [hlen, State.appended_msgCap]
      omega
    rw [loadMessage, List.map_cons, runTransactions_cmd _ (decode_encode _) (exec_mapp_fits hf hb b),
      appended_cons hb b bs]
    exact ih (s := s.appended [b]) hf hrest

/-- Settles O23: below capacity an append of one byte, at capacity fault entry. -/
theorem mappAppendsOneByteOrRaisesAlloc : Obligations.MappAppendsOneByteOrRaisesAlloc := by
  refine fun b => ⟨rfl, fun s hf hwf => ⟨fun hlt => ?_, fun hfull => exec_mapp_full hf (by rw [hfull]) b⟩⟩
  exact ⟨s.appended [b], exec_mapp_fits hf hlt b, rfl, appended_mlen_toNat hlt, Memory.read_write_self hwf _ _,
    fun a ha => Memory.read_write_other _ _ ha, appended_message hwf hlt⟩

/-- Settles O26: the run is one append of the whole sequence. -/
theorem messageBytesLoadInOrder : Obligations.MessageBytesLoadInOrder := fun bs s hf hwf hfit =>
  ⟨s.appended bs, runTransactions_loadMessage hf hfit, appended_message hwf hfit, appended_mlen_toNat hfit, rfl⟩

/-- Settles O22. -/
theorem mclrEmptiesTheMessageStore : Obligations.MclrEmptiesTheMessageStore := ⟨by decide, fun _ hf => exec_mclr hf⟩

/-! The key store. -/

/-- R123: with room left KAPP appends its byte. -/
theorem exec_kapp_room {s : State} (hf : s.fault = false) (h : s.klen.toNat < 64) (b : Byte) :
    exec (.kapp b) s = .next (s.keyAppended b) := by
  rw [exec_kapp hf, if_pos h]

/-- R123: with 64 bytes loaded KAPP does nothing. -/
theorem exec_kapp_full {s : State} (hf : s.fault = false) (h : 64 ≤ s.klen.toNat) (b : Byte) :
    exec (.kapp b) s = .next s := by
  rw [exec_kapp hf, if_neg (Nat.not_lt.2 h)]

/-- R123: a run of KAPPs changes the key store only, and counts up to 64. -/
theorem runTransactions_loadKey (bs : List Byte) {s : State} (hf : s.fault = false) (h : s.klen.toNat ≤ 64) :
    ∃ k n, runTransactions (loadKey bs) s = .next { s with key := k, klen := n } ∧
      n.toNat = min (s.klen.toNat + bs.length) 64 := by
  induction bs generalizing s with
  | nil => exact ⟨s.key, s.klen, rfl, (Nat.min_eq_left h).symm⟩
  | cons b bs ih =>
    rw [loadKey, List.map_cons, List.length_cons]
    rcases Nat.lt_or_eq_of_le h with hroom | hfull
    · have hlen := keyAppended_klen_toNat b hroom
      obtain ⟨k, n, hrun, hn⟩ := ih (s := s.keyAppended b) hf (by omega)
      rw [runTransactions_cmd _ (decode_encode _) (exec_kapp_room hf hroom b)]
      exact ⟨k, n, hrun, by omega⟩
    · obtain ⟨k, n, hrun, hn⟩ := ih hf h
      rw [runTransactions_cmd _ (decode_encode _) (exec_kapp_full hf hfull.ge b)]
      exact ⟨k, n, hrun, by omega⟩

/-- R123, R184: a mask reads 0x00 past the end of the key, so zero bytes after the key change nothing. -/
theorem hmacMd5_append_zeros (k m : List Byte) (n : Nat) :
    hmacMd5 (k ++ List.replicate n 0x00#8) m = hmacMd5 k m := by
  refine hmacMd5_congr (fun i _ => ?_) m
  rcases Nat.lt_or_ge i k.length with hin | hout
  · exact List.getD_append _ _ _ _ hin
  · rw [List.getD_append_right _ _ _ _ hout, List.getD_eq_default _ _ hout, List.getD_eq_getElem?_getD,
      List.getElem?_getD_replicate_default_eq]

/-- Settles O25: below 64 bytes an append of one byte, at 64 nothing; a run counts up to 64. -/
theorem kappAppendsUpTo64Bytes : Obligations.KappAppendsUpTo64Bytes := by
  refine fun b => ⟨rfl, fun s hf hwf => ⟨fun hlt => ?_, fun hfull => exec_kapp_full hf hfull.ge b⟩,
    fun s bs hf hempty => ?_, fun k m => hmacMd5_append_zeros k m 1⟩
  · exact ⟨s.keyAppended b, exec_kapp_room hf hlt b, rfl, keyAppended_klen_toNat b hlt, Memory.read_write_self hwf _ _,
      fun a ha => Memory.read_write_other _ _ ha, keyAppended_keyBytes b hwf hlt⟩
  · have hzero : s.klen.toNat = 0 := by simp [hempty]
    obtain ⟨k, n, hrun, hn⟩ := runTransactions_loadKey bs hf (hzero.trans_le (Nat.zero_le 64))
    exact ⟨_, hrun, by rwa [hzero, Nat.zero_add] at hn, rfl⟩

/-- Settles O24; the key is then the empty range of its store. -/
theorem kclrEmptiesTheKeyStore : Obligations.KclrEmptiesTheKeyStore := by
  refine ⟨by decide, fun _ hf => exec_kclr hf, fun s t hf e => ?_⟩
  rw [exec_kclr hf] at e
  cases e
  rfl

end Sys2Proof.Machine
end

section
/-! PROOFS: the pure functions of MD5 (spec/41_md5_primitives.md rules R143 to R148, R151, R153, R156). -/

namespace Sys2Proof.Machine

/-! Rounds (R143). -/

theorem roundOf_eq_F {i : Fin 64} (h : i.val / 16 = 0) : roundOf i = .F := by simp only [roundOf, h]

theorem roundOf_eq_G {i : Fin 64} (h : i.val / 16 = 1) : roundOf i = .G := by simp only [roundOf, h]

theorem roundOf_eq_H {i : Fin 64} (h : i.val / 16 = 2) : roundOf i = .H := by simp only [roundOf, h]

theorem roundOf_eq_I {i : Fin 64} (h : i.val / 16 = 3) : roundOf i = .I := by simp only [roundOf, h]

/-! The nonlinear functions (R143). -/

/-- Settles O34: F and G select by the bits of `b` and of `d`; H and I are bitwise already. -/
theorem nonlinearFunctionsFollowTheTruthTable : Obligations.NonlinearFunctionsFollowTheTruthTable := by
  refine fun i b c d k hk => ⟨fun h => ?_, fun h => ?_, fun h => ?_, fun h => ?_⟩
  · simp only [nonlinear, roundOf_eq_F h, BitVec.getLsbD_or, BitVec.getLsbD_and, BitVec.getLsbD_not, hk]
    cases b.getLsbD k <;> simp
  · simp only [nonlinear, roundOf_eq_G h, BitVec.getLsbD_or, BitVec.getLsbD_and, BitVec.getLsbD_not, hk]
    cases d.getLsbD k <;> simp
  · simp only [nonlinear, roundOf_eq_H h, BitVec.getLsbD_xor]
  · simp only [nonlinear, roundOf_eq_I h, BitVec.getLsbD_xor, BitVec.getLsbD_or, BitVec.getLsbD_not, hk, decide_true,
      Bool.true_and]

/-! The message-word index (R144). -/

theorem wordIndex_F {i : Fin 64} (h : i.val / 16 = 0) : (wordIndex i).val = i.val := by
  rw [wordIndex, roundOf_eq_F h]
  exact Nat.mod_eq_of_lt (by omega)

theorem wordIndex_G {i : Fin 64} (h : i.val / 16 = 1) : (wordIndex i).val = (5 * i.val + 1) % 16 := by
  rw [wordIndex, roundOf_eq_G h, Fin.val_ofNat]

theorem wordIndex_H {i : Fin 64} (h : i.val / 16 = 2) : (wordIndex i).val = (3 * i.val + 5) % 16 := by
  rw [wordIndex, roundOf_eq_H h, Fin.val_ofNat]

theorem wordIndex_I {i : Fin 64} (h : i.val / 16 = 3) : (wordIndex i).val = (7 * i.val) % 16 := by
  rw [wordIndex, roundOf_eq_I h, Fin.val_ofNat]

/-- Two steps of one round that use the same word are the same step: 1, 5, 3 and 7 are units modulo 16. -/
theorem wordIndex_inj {i i' : Fin 64} (hround : i.val / 16 = i'.val / 16) (h : wordIndex i = wordIndex i') : i = i' := by
  replace h : (wordIndex i).val = (wordIndex i').val := congrArg Fin.val h
  apply Fin.ext
  obtain hr | hr | hr | hr : i'.val / 16 = 0 ∨ i'.val / 16 = 1 ∨ i'.val / 16 = 2 ∨ i'.val / 16 = 3 := by omega
  · rw [wordIndex_F (hround.trans hr), wordIndex_F hr] at h
    exact h
  · rw [wordIndex_G (hround.trans hr), wordIndex_G hr] at h
    omega
  · rw [wordIndex_H (hround.trans hr), wordIndex_H hr] at h
    omega
  · rw [wordIndex_I (hround.trans hr), wordIndex_I hr] at h
    omega

theorem val_ofNat_stepOfRound (r : Fin 4) (q : Fin 16) : (Fin.ofNat 64 (16 * r.val + q.val)).val = 16 * r.val + q.val :=
  Nat.mod_eq_of_lt (by omega)

/-- R144: the sixteen steps of a round use the sixteen words, each once. -/
theorem wordIndex_bijective (r : Fin 4) :
    Function.Bijective fun q : Fin 16 => wordIndex (Fin.ofNat 64 (16 * r.val + q.val)) := by
  refine Finite.injective_iff_bijective.1 fun q q' h => ?_
  have hval := val_ofNat_stepOfRound r q
  have hval' := val_ofNat_stepOfRound r q'
  have hstep := congrArg Fin.val (wordIndex_inj (by rw [hval, hval']; omega) h)
  rw [hval, hval'] at hstep
  exact Fin.ext (Nat.add_left_cancel hstep)

/-- Settles O35: the four formulas, each of them injective on the sixteen steps of its round. -/
theorem wordIndexPermutesTheBlock : Obligations.WordIndexPermutesTheBlock :=
  ⟨fun _ => ⟨wordIndex_F, wordIndex_G, wordIndex_H, wordIndex_I⟩, fun r j => (wordIndex_bijective r).existsUnique j⟩

/-! The shift amounts (R146). -/

theorem shiftAmount_eq_getElem? (i : Fin 64) :
    some (shiftAmount i).val = ((shiftPattern (roundOf i)).toList.map Subtype.val)[i.val % 4]? := by
  rw [List.getElem?_map, Vector.getElem?_toList, Vector.getElem?_eq_getElem (Nat.mod_lt _ (by decide))]
  rfl

theorem shiftPattern_bounds (r : Round) (j : Fin 4) :
    4 ≤ ((shiftPattern r).get j).val ∧ ((shiftPattern r).get j).val ≤ 23 := by
  cases r <;> revert j <;> decide

/-- Settles O36: the pattern of each round is read at `i mod 4`. -/
theorem shiftAmountsFollowThePatterns : Obligations.ShiftAmountsFollowThePatterns := by
  refine fun i => ⟨fun h => ?_, fun h => ?_, fun h => ?_, fun h => ?_, shiftPattern_bounds _ _⟩ <;>
    rw [shiftAmount_eq_getElem?]
  · rw [roundOf_eq_F h]; rfl
  · rw [roundOf_eq_G h]; rfl
  · rw [roundOf_eq_H h]; rfl
  · rw [roundOf_eq_I h]; rfl

/-! Worked steps (R148). -/

/-- Settles O37, by evaluating each step. -/
theorem workedStepsComeOut : Obligations.WorkedStepsComeOut := by
  refine ⟨by decide, fun w hw => ?_⟩
  subst hw
  exact ⟨by decide, by decide, by decide, by decide⟩

/-! Padding (R151, R153). -/

theorem padZeros_cast (len : Nat) : (padZeros len : Int) = (55 - (len : Int)) % 64 :=
  Int.toNat_of_nonneg (Int.emod_nonneg _ (by decide))

/-- The remainder of R151 without a negative number. -/
theorem padZeros_eq (len : Nat) : padZeros len = (119 - len % 64) % 64 := by
  have := padZeros_cast len
  omega

/-- R151: the tail is the marker, the zero bytes and the length field. -/
theorem padTail_eq_append (len : Nat) :
    padTail len = [0x80#8] ++ List.replicate (padZeros len) 0x00#8 ++ le64enc (BitVec.ofNat 64 (8 * len)) := (rfl)

/-- The length field of R151 follows the marker and the zero bytes. -/
theorem padTail_drop (len : Nat) : (padTail len).drop (1 + padZeros len) = le64enc (BitVec.ofNat 64 (8 * len)) := by
  rw [padTail_eq_append]
  exact List.drop_left' (by simp; omega)

theorem padTail_getElem?_between {len j : Nat} (h1 : 1 ≤ j) (h2 : j < 1 + padZeros len) :
    (padTail len)[j]? = some 0x00#8 := by
  obtain ⟨j, rfl⟩ := Nat.exists_eq_add_of_le' h1
  rw [padTail, List.getElem?_cons_succ, List.getElem?_append_left (by simp; omega),
    List.getElem?_replicate_of_lt (by omega)]

/-- R153: how many blocks the padded length has. -/
theorem padded_eq (len : Nat) :
    (len % 64 ≤ 55 → len + (9 + padZeros len) = 64 * (len / 64 + 1)) ∧
    (56 ≤ len % 64 → len + (9 + padZeros len) = 64 * (len / 64 + 2)) := by
  have := padZeros_eq len
  constructor <;> omega

/-- Settles O38: the parts of the tail, and the arithmetic of their lengths. -/
theorem paddingTailProperties : Obligations.PaddingTailProperties := by
  intro len
  have hlt := padZeros_lt len
  have hmod := padded_mod len
  obtain ⟨hshort, hlong⟩ := padded_eq len
  have hfield : BitVec.ofNat 64 (8 * len % 2 ^ 64) = BitVec.ofNat 64 (8 * len) := BitVec.eq_of_toNat_eq (by simp)
  rw [padTail_length, hfield]
  exact ⟨padTail_eq_append len, padZeros_cast len, padZeros_eq len, rfl, hmod, by omega, by omega, hshort, hlong,
    by omega, rfl, padTail_drop len, fun _ h1 h2 => padTail_getElem?_between h1 h2⟩

/-! The digest of a state (R156). -/

/-- Settles O39, byte by byte. -/
theorem digestBytesAreTheStateBytes : Obligations.DigestBytesAreTheStateBytes := by
  refine fun st => ⟨rfl, fun k t => ?_⟩
  fin_cases k <;> fin_cases t <;> rfl

end Sys2Proof.Machine
end

section
/-! PROOFS: the commands INIT, PAD, CBLK and ENC (spec/41_md5_primitives.md rules R142, R150, R152, R157, and R255). -/

namespace Sys2Proof.Machine

/-! One lemma per command and outcome, in mode READY. -/

section Ready

variable {s : State} (hf : s.fault = false)
include hf

theorem exec_pad_fits (h : s.mlen.toNat + (padTail s.mlen.toNat).length ≤ s.msgCap.toNat) :
    exec .pad s = .next (s.appended (padTail s.mlen.toNat)) := by
  rw [exec_pad hf, padStep, appendOrRaise_fits h, finished_state]

theorem exec_pad_full (h : s.msgCap.toNat < s.mlen.toNat + (padTail s.mlen.toNat).length) :
    exec .pad s = .next (s.raise .alloc (encode .pad)) := by
  rw [exec_pad hf, padStep, appendOrRaise_full h, raised_state]

theorem exec_cblk_nostate (h : s.sv = false) : exec .cblk s = .next (s.raise .nostate (encode .cblk)) := by
  rw [exec_cblk hf, cblkStep_nostate h, raised_state]

theorem exec_cblk_noblock (h : s.sv = true) (hb : s.mlen.toNat < 64 * (s.blk.toNat + 1)) :
    exec .cblk s = .next (s.raise .noblock (encode .cblk)) := by
  rw [exec_cblk hf, cblkStep_noblock h hb, raised_state]

theorem exec_cblk_block (h : s.sv = true) (hb : 64 * (s.blk.toNat + 1) ≤ s.mlen.toNat) :
    exec .cblk s = .next (s.advance (md5Compress s.st s.block)) := by
  rw [exec_cblk hf, cblkStep_block h hb, finished_state]

theorem exec_enc_nostate (h : s.sv = false) : exec .enc s = .next (s.raise .nostate (encode .enc)) := by
  rw [exec_enc hf, encStep_nostate h, raised_state]

theorem exec_enc_state (h : s.sv = true) : exec .enc s = .next (s.putDigest (md5Encode s.st)) := by
  rw [exec_enc hf, encStep_state h, finished_state]

end Ready

/-- R36: the registers STA to STD read the words of a valid state only. -/
theorem regRead_word (s : State) (j : Fin 4) : regRead (Fin.ofNat 64 (8 + j.val)) s = gated s.sv (s.st.x j) := by
  fin_cases j <;> rfl

/-- Settles O27; a second INIT finds what it would write. -/
theorem initLoadsTheInitialConstants : Obligations.InitLoadsTheInitialConstants := by
  refine ⟨by decide, fun s hf => ⟨exec_init hf, fun t e => ?_⟩⟩
  rw [exec_init hf] at e
  cases e
  exact ⟨rfl, rfl, rfl, rfl, rfl, exec_init (s := s.startState) hf⟩

/-- Settles O28: the append of the tail where it fits, fault entry where it does not. -/
theorem padAppendsThePaddingTail : Obligations.PadAppendsThePaddingTail := by
  refine ⟨by decide, fun s hf hwf => ⟨fun hfit => ?_, exec_pad_full hf⟩⟩
  have hlen := appended_mlen_toNat hfit
  have hmod := padded_mod s.mlen.toNat
  rw [← padTail_length, ← hlen] at hmod
  have htail := padTail_length s.mlen.toNat
  exact ⟨s.appended (padTail s.mlen.toNat), exec_pad_fits hf hfit, rfl, hlen, appended_message hwf hfit,
    fun _ ha => Memory.read_writeBytes_other _ ha, hmod, by omega, by omega⟩

/-- Settles O29: the three outcomes of CBLK. -/
theorem cblkCompressesTheBlockAtTheCursor : Obligations.CblkCompressesTheBlockAtTheCursor :=
  ⟨by decide, fun s hf => ⟨exec_cblk_nostate hf, exec_cblk_noblock hf, fun hsv hb =>
    ⟨exec_cblk_block hf hsv hb, advance_blk_toNat s.st hb⟩⟩⟩

/-- Settles O30: ENC consumes the state, so the second one finds none. -/
theorem encEncodesAndConsumesTheState : Obligations.EncEncodesAndConsumesTheState := by
  refine ⟨by decide, fun s hf => ⟨exec_enc_state hf, exec_enc_nostate hf, fun t hsv e => ?_⟩⟩
  rw [exec_enc_state hf hsv] at e
  cases e
  exact ⟨fun j => regRead_word _ j, exec_enc_nostate (s := s.putDigest _) hf rfl⟩

/-- R157, R181, R187: ENC, HASH and HMAC consume the state where they raise no fault. -/
theorem exec_consumes_state {i : Instr} {s t : State} (hf : s.fault = false) (hi : i = .enc ∨ i = .hash ∨ i = .hmac)
    (e : exec i s = .next t) (ht : t.fault = false) : t.sv = false := by
  rcases hi with rfl | rfl | rfl
  · rw [exec_enc hf] at e
    cases e
    obtain ⟨-, -, hsv⟩ := encStep_words ht
    exact hsv
  · rw [exec_hash hf] at e
    cases e
    exact hashSteps_sv ht
  · rw [exec_hmac hf] at e
    cases e
    exact hmacState_sv s

/-- Settles O50: with the state consumed ENC and CBLK find none. -/
theorem stateIsConsumed : Obligations.StateIsConsumed := fun _ _ _ hf hi e ht =>
  have hsv := exec_consumes_state hf hi e ht
  ⟨hsv, exec_enc_nostate ht hsv, exec_cblk_nostate ht hsv⟩

end Sys2Proof.Machine
end

section
/-! PROOFS: the keyed digest (spec/42_hash_hmac.md rules R183 to R187, R189). -/

namespace Sys2Proof.Machine

/-! The masks (R184). -/

theorem keyMask_getElem? (k : List Byte) (c : Byte) {i : Nat} (hi : i < 64) :
    (keyMask k c)[i]? = some (k.getD i 0x00#8 ^^^ c) := by
  simp [keyMask, hi]

theorem keyMask_getElem?_key {k : List Byte} (c : Byte) {i : Nat} (hi : i < 64) (hk : i < k.length) :
    (keyMask k c)[i]? = some (k[i] ^^^ c) := by
  rw [keyMask_getElem? k c hi, List.getD_eq_getElem _ _ hk]

theorem keyMask_getElem?_past_key {k : List Byte} (c : Byte) {i : Nat} (hi : i < 64) (hk : k.length ≤ i) :
    (keyMask k c)[i]? = some c := by
  rw [keyMask_getElem? k c hi, List.getD_eq_default _ _ hk, BitVec.zero_xor]

/-- Settles O41: byte `i` of a mask is the key's byte or 0x00, exclusive-or the constant. -/
theorem masksAreTheKeyXorTheConstants : Obligations.MasksAreTheKeyXorTheConstants := fun k =>
  ⟨ipad_length k, opad_length k,
    fun i hi hk => ⟨k[i], List.getElem?_eq_getElem hk, keyMask_getElem?_key _ hi hk, keyMask_getElem?_key _ hi hk⟩,
    fun _ hi hk => ⟨keyMask_getElem?_past_key _ hi hk, keyMask_getElem?_past_key _ hi hk⟩⟩

/-- Settles O42: the composition is the definition; the rest is lengths and one padding tail. -/
theorem hmacIsTwoMaskedPasses : Obligations.HmacIsTwoMaskedPasses := fun k m =>
  ⟨rfl, by simp, by simp, by decide, by decide⟩

/-! Long and short keys (R186, R189). -/

/-- R186: the masks never look past position 63. -/
theorem hmacMd5_take (k m : List Byte) : hmacMd5 (k.take 64) m = hmacMd5 k m := by
  refine hmacMd5_congr (fun i hi => ?_) m
  rw [List.getD_eq_getElem?_getD, List.getD_eq_getElem?_getD, List.getElem?_take_of_lt hi]

/-- R123: a run of KAPPs appends to the key until 64 bytes are loaded, and drops the rest. -/
theorem runTransactions_loadKey_keyBytes (bs : List Byte) {s : State} (hf : s.fault = false) (hwf : Memory.wf s.key)
    (h : s.klen.toNat ≤ 64) :
    ∃ t, runTransactions (loadKey bs) s = .next t ∧ t.keyBytes = s.keyBytes ++ bs.take (64 - s.klen.toNat) := by
  induction bs generalizing s with
  | nil => exact ⟨s, rfl, by simp⟩
  | cons b bs ih =>
    rw [loadKey, List.map_cons]
    rcases Nat.lt_or_eq_of_le h with hroom | hfull
    · have hlen := keyAppended_klen_toNat b hroom
      obtain ⟨t, hrun, hkey⟩ := ih (s := s.keyAppended b) hf (Memory.write_wf hwf _ _) (by omega)
      refine ⟨t, (runTransactions_cmd _ (decode_encode _) (exec_kapp_room hf hroom b)).trans hrun, ?_⟩
      have hleft : 64 - s.klen.toNat = 64 - (s.klen.toNat + 1) + 1 := by omega
      rw [hkey, keyAppended_keyBytes b hwf hroom, hlen, hleft, List.take_succ_cons, List.append_assoc,
        List.singleton_append]
    · obtain ⟨t, hrun, hkey⟩ := ih hf hwf h
      refine ⟨t, (runTransactions_cmd _ (decode_encode _) (exec_kapp_full hf hfull.ge b)).trans hrun, ?_⟩
      rw [hkey, hfull, Nat.sub_self, List.take_zero, List.take_zero]

/-- Settles O43: the masks end at position 63, where KAPP stops loading. -/
theorem longKeysAreTruncated : Obligations.LongKeysAreTruncated := by
  refine ⟨fun k m _ => (hmacMd5_take k m).symm, fun s bs hf hwf hempty => ?_⟩
  have hlen : s.klen.toNat = 0 := by simp [hempty]
  obtain ⟨t, hrun, hkey⟩ := runTransactions_loadKey_keyBytes bs hf hwf (by omega)
  have hnone : s.keyBytes = [] := List.eq_nil_of_length_eq_zero ((keyBytes_length s).trans hlen)
  rw [hnone, List.nil_append, hlen] at hkey
  exact ⟨t, hrun, hkey, fun m => hkey ▸ hmacMd5_take bs m⟩

/-- Settles O44; the bound on the length is not needed, as the masks end at position 63. -/
theorem trailingZeroKeyBytesDoNotMatter : Obligations.TrailingZeroKeyBytesDoNotMatter :=
  fun k m n _ => hmacMd5_append_zeros k m n

/-- Settles O40: the kernel evaluates the three digests. -/
theorem knownDigestsComeOut : Obligations.KnownDigestsComeOut :=
  ⟨by decide +kernel, by decide +kernel, by decide +kernel⟩

/-! The command HMAC (R187). -/

/-- Settles O47: the words of the state and the count of free values are the only other fields HMAC changes. -/
theorem hmacDigestsTheMessageUnderTheKey : Obligations.HmacDigestsTheMessageUnderTheKey :=
  ⟨by decide, fun s hf => ⟨hmacState s, exec_hmac hf, hmacState_dig s, rfl⟩⟩

end Sys2Proof.Machine
end

section
/-! PROOFS: HASH and the digests it leaves (spec/42_hash_hmac.md rules R180, R181, R188, spec/70_reset_and_hazards.md rule
R253). -/

namespace Sys2Proof.Machine

/-- R180: the digest encodes the state after the last block. -/
theorem md5_eq (m : List Byte) : md5 m = md5Encode (md5Final m) := by rw [md5]

/-! The state HASH ends in. -/

/-- HASH leaves the store as PAD does. -/
theorem hashedState_message (s : State) : (hashedState s).message = (s.appended (padTail s.mlen.toNat)).message := (rfl)

theorem hashedState_msg_wf {s : State} (hwf : Memory.wf s.msg) : Memory.wf (hashedState s).msg :=
  Memory.writeBytes_wf hwf _ _

section Fits

variable {s : State} (hfit : s.mlen.toNat + (9 + padZeros s.mlen.toNat) ≤ s.msgCap.toNat)
include hfit

theorem exec_hash_fits (hf : s.fault = false) : exec .hash s = .next (hashedState s) := by
  rw [exec_hash hf, hashSteps_fits hfit, finished_state]

theorem hashedState_mlen_toNat : (hashedState s).mlen.toNat = s.mlen.toNat + (9 + padZeros s.mlen.toNat) := by
  rw [hashedState_mlen, appended_mlen_toNat (by simpa using hfit), padTail_length]

theorem hashedState_message_eq (hwf : Memory.wf s.msg) :
    (hashedState s).message = s.message ++ padTail s.mlen.toNat := by
  rw [hashedState_message, appended_message hwf (by simpa using hfit)]

/-- The padded store is the padded form of the message, so the words compressed from it are those of its digest. -/
theorem hashWords_eq_md5Final (hwf : Memory.wf s.msg) : hashWords s = md5Final s.message := by
  rw [hashWords, ← hashedState_message, hashedState_message_eq hfit hwf, md5Final, message_length, List.length_append,
    message_length, padTail_length]

/-- R181: HASH leaves the digest of the message. -/
theorem hashedState_dig_eq (hwf : Memory.wf s.msg) : (hashedState s).dig = md5 s.message := by
  rw [hashedState_dig, hashWords_eq_md5Final hfit hwf, md5_eq]

end Fits

theorem exec_hash_full {s : State} (hf : s.fault = false)
    (h : s.msgCap.toNat < s.mlen.toNat + (9 + padZeros s.mlen.toNat)) :
    exec .hash s = .next (s.startState.raise .alloc (encode .hash)) := by
  rw [exec_hash hf, hashSteps_full h, raised_state]

/-- A HASH that raises no fault found room for the padding. -/
theorem exec_hash_no_fault {s t : State} (hf : s.fault = false) (e : exec .hash s = .next t) (ht : t.fault = false) :
    s.mlen.toNat + (9 + padZeros s.mlen.toNat) ≤ s.msgCap.toNat ∧ t = hashedState s := by
  rw [exec_hash hf] at e
  cases e
  rcases hashSteps_cases (encode .hash) s with ⟨hfit, e⟩ | ⟨-, e⟩ <;> rw [e] at ht ⊢
  · exact ⟨hfit, finished_state _⟩
  · cases ht

/-- Settles O45: the state HASH ends in where the padding fits, and fault entry after INIT where it does not. -/
theorem hashDigestsTheMessage : Obligations.HashDigestsTheMessage := by
  refine ⟨by decide, fun s hf hwf => ⟨fun hfit => ?_, exec_hash_full hf⟩⟩
  have hdig := hashedState_dig_eq hfit hwf
  refine ⟨hashedState s, exec_hash_fits hfit hf, hdig, ?_, hashedState_mlen_toNat hfit, hashedState_message_eq hfit hwf,
    fun a ha => Memory.read_writeBytes_other _ (by rwa [padTail_length])⟩
  rw [← hdig]
  rfl

/-! A second HASH (R253). -/

/-- R151: a whole number of blocks is padded by one block more. -/
theorem padZeros_of_whole_blocks {n : Nat} (h : n % 64 = 0) : 9 + padZeros n = 64 := by
  rw [padZeros_eq, h]

/-- Settles O49: the second HASH starts from a message of whole blocks, the first one's padded store. -/
theorem secondHashDigestsThePaddedStore : Obligations.SecondHashDigestsThePaddedStore := by
  intro s t hf hwf e ht hfit'
  obtain ⟨hfit, rfl⟩ := exec_hash_no_fault hf e ht
  have hblocks : (hashedState s).mlen.toNat % 64 = 0 := by rw [hashedState_mlen_toNat hfit, padded_mod]
  refine ⟨hashedState (hashedState s), exec_hash_fits (s := hashedState s) hfit' ht, (hashedState_fault _).trans ht, ?_, ?_⟩
  · rw [hashedState_dig_eq (s := hashedState s) hfit' (hashedState_msg_wf hwf), hashedState_message_eq hfit hwf]
  · rw [hashedState_mlen_toNat (s := hashedState s) hfit', padZeros_of_whole_blocks hblocks]

/-! HMAC by primitives (R188). -/

@[simp] theorem hmacState_message (s : State) : (hmacState s).message = s.message := (rfl)

/-- The state whose message is a byte sequence, loaded after MCLR. -/
def State.holding (bs : List Byte) (s : State) : State := s.emptyMessage.appended bs

@[simp] theorem holding_msgCap (bs : List Byte) (s : State) : (s.holding bs).msgCap = s.msgCap := (rfl)
@[simp] theorem holding_fault (bs : List Byte) (s : State) : (s.holding bs).fault = s.fault := (rfl)

theorem holding_msg_wf {s : State} (hwf : Memory.wf s.msg) (bs : List Byte) : Memory.wf (s.holding bs).msg :=
  Memory.writeBytes_wf hwf _ _

section Holding

variable {s : State} {bs : List Byte} (hcap : bs.length + (9 + padZeros bs.length) ≤ s.msgCap.toNat)
include hcap

/-- Into the emptied store the sequence fits. -/
theorem emptyMessage_fits : s.emptyMessage.mlen.toNat + bs.length ≤ s.emptyMessage.msgCap.toNat := by
  rw [State.emptyMessage_mlen, State.emptyMessage_msgCap, BitVec.toNat_zero]
  omega

theorem holding_mlen_toNat : (s.holding bs).mlen.toNat = bs.length := by
  rw [State.holding, appended_mlen_toNat (emptyMessage_fits hcap), State.emptyMessage_mlen, BitVec.toNat_zero,
    Nat.zero_add]

theorem holding_message (hwf : Memory.wf s.msg) : (s.holding bs).message = bs :=
  appended_message (s := s.emptyMessage) hwf (emptyMessage_fits hcap)

theorem holding_fits : (s.holding bs).mlen.toNat + (9 + padZeros (s.holding bs).mlen.toNat) ≤
    (s.holding bs).msgCap.toNat := by
  rwa [holding_mlen_toNat hcap]

/-- MCLR, one MAPP per byte and HASH: the digest of the sequence, and the sequence with its padding in the store. -/
theorem runTransactions_hash_of_bytes (hf : s.fault = false) :
    runTransactions
      ([Transaction.cmdWrite (encode .mclr)] ++ loadMessage bs ++ [Transaction.cmdWrite (encode .hash)]) s =
      .next (hashedState (s.holding bs)) := by
  have eload : runTransactions (loadMessage bs) s.emptyMessage = .next (s.holding bs) :=
    runTransactions_loadMessage (s := s.emptyMessage) hf (emptyMessage_fits hcap)
  have ehash : exec .hash (s.holding bs) = .next (hashedState (s.holding bs)) :=
    exec_hash_fits (holding_fits hcap) ((holding_fault bs s).trans hf)
  rw [List.append_assoc, List.singleton_append, runTransactions_cmd _ (decode_encode _) (exec_mclr hf),
    runTransactions_append eload, runTransactions_cmd _ (decode_encode _) ehash, runTransactions_nil]

theorem hashedState_holding_dig (hwf : Memory.wf s.msg) : (hashedState (s.holding bs)).dig = md5 bs := by
  rw [hashedState_dig_eq (holding_fits hcap) (holding_msg_wf hwf bs), holding_message hcap hwf]

theorem hashedState_holding_mlen_toNat :
    (hashedState (s.holding bs)).mlen.toNat = bs.length + (9 + padZeros bs.length) := by
  rw [hashedState_mlen_toNat (holding_fits hcap), holding_mlen_toNat hcap]

theorem hashedState_holding_message (hwf : Memory.wf s.msg) :
    (hashedState (s.holding bs)).message = bs ++ padTail bs.length := by
  rw [hashedState_message_eq (holding_fits hcap) (holding_msg_wf hwf bs), holding_message hcap hwf,
    holding_mlen_toNat hcap]

end Holding

/-- Settles O48: the first run leaves the inner digest and the second the outer one, over 80 bytes. -/
theorem hmacByPrimitives : Obligations.HmacByPrimitives := by
  intro s hf hwf hinner houter
  obtain ⟨t, ht⟩ : ∃ t, t = hashedState (s.holding (ipad s.keyBytes ++ s.message)) := ⟨_, rfl⟩
  have hcap : (ipad s.keyBytes ++ s.message).length + (9 + padZeros (ipad s.keyBytes ++ s.message).length) ≤
      s.msgCap.toNat := by
    rwa [List.length_append, ipad_length, message_length, Nat.add_comm 64]
  have etdig : t.dig = md5 (ipad s.keyBytes ++ s.message) := by rw [ht, hashedState_holding_dig hcap hwf]
  have htf : t.fault = false := by rw [ht, hashedState_fault, holding_fault, hf]
  have htwf : Memory.wf t.msg := by rw [ht]; exact hashedState_msg_wf (holding_msg_wf hwf _)
  have hlen : (opad s.keyBytes ++ t.dig.toList).length = 80 := by simp
  have hcap' : (opad s.keyBytes ++ t.dig.toList).length + (9 + padZeros (opad s.keyBytes ++ t.dig.toList).length) ≤
      t.msgCap.toNat := by
    rw [hlen, ht, hashedState_msgCap, holding_msgCap]
    exact houter
  refine ⟨t, hashedState (t.holding (opad s.keyBytes ++ t.dig.toList)), hmacState s,
    ht ▸ runTransactions_hash_of_bytes hcap hf, etdig, runTransactions_hash_of_bytes hcap' htf, exec_hmac hf, ?_,
    hashedState_dv _, hmacState_dv s, (hashedState_fault _).trans htf, ?_, ?_, hmacState_message s⟩
  · rw [hashedState_holding_dig hcap' htwf, hmacState_dig, etdig, hmacMd5, hmacInner]
  · rw [hashedState_holding_mlen_toNat hcap', hlen]
    decide
  · rw [hashedState_holding_message hcap' htwf, hlen]

end Sys2Proof.Machine
end

section
/-! PROOFS: the dispatch, the resets and the port (spec/43_system.md rules R200 to R205, and R226, R229, R260, R263). -/

namespace Sys2Proof.Machine

/-! The dispatch (R203). -/

/-- In mode FAULTED every word but RST is ignored, legal or not. -/
theorem cmdWrite_faulted {w : Word} {s : State} (hf : s.fault = true) (hw : decode w ≠ .ok .rst) :
    cmdWrite w s = .next s := by
  cases hd : decode w with
  | ok i =>
    have hi : i ≠ .rst := fun e => hw (e ▸ hd)
    exact perform_cmd_faulted hd hi hf
  | error r => exact cmdWrite_illegal_faulted hd hf

theorem perform_existsUnique (tr : Transaction) (s : State) :
    ∃ t, perform tr s = .next t ∧ ∀ u, perform tr s = .next u → u = t := by
  obtain ⟨t, e⟩ := perform_next tr s
  exact ⟨t, e, fun u e' => Host.Outcome.next.inj (e'.symm.trans e)⟩

/-- Settles O7: the mode and the decoding of the word choose among the four cases. -/
theorem commandWriteDispatches : Obligations.CommandWriteDispatches := by
  refine fun s w => ⟨fun _ hd => cmdWrite_legal hd s, fun hf hw => cmdWrite_faulted hf hw, fun hf hw => ?_,
    fun i _ hd => cmdWrite_legal hd s, perform_existsUnique (.cmdWrite w) s⟩
  obtain ⟨r, hr⟩ := exists_decode_eq_error hw
  exact cmdWrite_illegal hr hf

/-- Settles O8: a step is idle or one transaction, and every transaction answers a next state. -/
theorem everyStepAnswersANextState : Obligations.EveryStepAnswersANextState := by
  intro s
  cases hp : s.pending with
  | nil => exact ⟨s, step_idle hp⟩
  | cons tr rest =>
    rw [step_pending hp]
    exact perform_next tr (s.setPending rest)

/-! The way out of mode FAULTED (R204, R229). -/

/-- R229: a transaction that leaves mode FAULTED is a reset. -/
theorem resets_of_perform_clears_fault {tr : Transaction} {s t : State} (e : perform tr s = .next t) (hs : s.fault = true)
    (ht : t.fault = false) : Transaction.resets tr := by
  obtain ⟨-, -, -, -, -, hclear⟩ := flagsChangeOnlyAsTabled s t tr e
  exact hclear hs ht

/-- Settles O15: RST and the reset input are one operation, and a malformed RST word does not decode. -/
theorem rstAndResetGiveTheResetState : Obligations.RstAndResetGiveTheResetState := by
  have hmalformed : decode 0x00000101#32 = .error .immediateNotZero := by decide
  refine ⟨by decide, fun s => ⟨?_, fun hf _ hi => exec_faulted hf hi,
    fun _ _ hf e ht => resets_of_perform_clears_fault e hf ht, fun hf => cmdWrite_illegal_faulted hmalformed hf,
    fun hf => cmdWrite_illegal hmalformed hf⟩⟩
  exact ⟨s.resetEngine, exec_rst s, rfl, rfl, rfl, rfl, rfl, rfl, rfl, rfl, rfl, rfl, rfl, rfl, rfl⟩

/-! A run after a fault (R205, R226, R260). -/

/-- R37: without a valid digest DIG0 to DIG3 read 0. -/
theorem regRead_dig_eq_zero {s : State} (h : s.dv = false) (k : Fin 4) : regRead (Fin.ofNat 64 (12 + k.val)) s = 0#32 := by
  rw [regRead_dig, State.digestWord, gated, h]
  rfl

/-- R205: a run without a reset does not leave mode FAULTED. -/
theorem runTransactions_stays_faulted {ts : List Transaction} {s t : State} (hs : s.fault = true)
    (hts : ∀ tr ∈ ts, ¬ Transaction.resets tr) (e : runTransactions ts s = .next t) : t.fault = true := by
  induction ts generalizing s with
  | nil => cases e; exact hs
  | cons tr ts ih =>
    obtain ⟨u, hu⟩ := perform_next tr s
    have huf : u.fault = true := Bool.eq_true_of_not_eq_false fun h =>
      hts tr List.mem_cons_self (resets_of_perform_clears_fault hu hs h)
    rw [runTransactions_cons hu] at e
    exact ih huf (fun x hx => hts x (List.mem_cons_of_mem _ hx)) e

/-- Settles O21: the run stays in mode FAULTED, where the invariant keeps DV clear. -/
theorem noDigestAfterAFault : Obligations.NoDigestAfterAFault := by
  intro s t ts hinv hf hts e
  have htf : t.fault = true := runTransactions_stays_faulted hf hts e
  have hdv : t.dv = false := (runTransactions_inv hinv e).dv_clear htf
  refine ⟨?_, ?_, hdv, regRead_dig_eq_zero hdv⟩
  · simp [State.endsWell, htf]
  · simp [State.digestUsable, htf]

/-! The registers (R39, R201, R202). -/

/-- R39: numbers 17 to 63 are unmapped. -/
theorem regRead_unmapped {n : Fin 64} (h : 17 ≤ n.val) (s : State) : regRead n s = 0#32 := by
  have hnone : portRegOf n = none := List.getElem?_eq_none h
  rw [regRead, hnone]

/-- R201: a step that reads a register returns its value and changes nothing else. -/
theorem step_regRead {s : State} {n : Fin 64} {rest : List Transaction} (h : s.pending = .regRead n :: rest) :
    step s = .next ((s.setPending rest).pushRead (regRead n s)) := by
  rw [step_pending h, perform, regRead_setPending]

/-- Settles O9: each register by its number; the invariant clears FCMD without a fault and DV with one. -/
theorem registerReadsFollowTheMap : Obligations.RegisterReadsFollowTheMap := by
  intro s
  obtain ⟨hdig, -, -⟩ := digestRegistersReadTheEncodedWords
  refine ⟨rfl, rfl, rfl, fun hinv hf => hinv.fcmd_zero hf, rfl, rfl, rfl, rfl, rfl, regRead_word s, hdig s, rfl,
    fun _ hn => regRead_unmapped hn s, fun hinv hf => regRead_dig_eq_zero (hinv.dv_clear hf), fun _ _ h => step_regRead h⟩

/-- Settles O11: only registers 0 and 6 are written. -/
theorem registerWritesReachOnlyCmdAndMptr : Obligations.RegisterWritesReachOnlyCmdAndMptr := by
  refine fun s n v => ⟨?_, ?_, fun h0 h6 => regWrite_other h0 h6 v s⟩
  · rintro rfl
    exact regWrite_cmd v s
  · rintro rfl
    exact regWrite_mptr v s

end Sys2Proof.Machine
end

section
/-! PROOFS: the faults (spec/60_exceptions.md rules R221, R223, R226, R228, R229, R230): which command raises which, what fault
entry changes, and what mode FAULTED keeps. -/

namespace Sys2Proof.Machine

/-! Illegal words (R223). -/

/-- R223: each of the three reasons contradicts a field of every command's word. -/
theorem decode_ne_ok_of_malformed {w : Word}
    (h : rsvField w ≠ 0#16 ∨ formatOfOpcode (opField w).toNat = none ∨
      (formatOfOpcode (opField w).toNat = some .N ∧ imm8Field w ≠ 0#8)) (i : Instr) : decode w ≠ .ok i := by
  intro hd
  obtain ⟨hrsv, hop, himm⟩ := fields_of_decode hd
  obtain ⟨-, -, -, hformat, -⟩ := encodedFields i
  rw [hop, hformat] at h
  rcases h with h | h | ⟨hN, h⟩
  · exact h hrsv
  · cases h
  · exact h (himm.trans (immediate_eq_zero (Option.some.inj hN)))

/-- R223: in mode READY a word that is no command's is fault entry for ILLEGAL. -/
theorem cmdWrite_of_not_legal {w : Word} {s : State} (hf : s.fault = false) (h : ∀ i, decode w ≠ .ok i) :
    cmdWrite w s = .next (s.raise .illegal w) := by
  obtain ⟨r, hr⟩ := exists_decode_eq_error h
  exact cmdWrite_illegal hr hf

/-- Settles O5: a word with one of the three faults is no command's, so it does not decode. -/
theorem illegalWordsRaiseIllegal : Obligations.IllegalWordsRaiseIllegal := by
  intro s w hf h
  have hw := decode_ne_ok_of_malformed h
  exact ⟨exists_decode_eq_error hw, cmdWrite_of_not_legal hf hw⟩

/-! Mode FAULTED (R229, R230). -/

/-- R200, R204: both resets have the effect of the reset input. -/
theorem perform_of_resets {tr : Transaction} (h : Transaction.resets tr) (s : State) :
    perform tr s = .next s.resetEngine := by
  rcases h with rfl | rfl | rfl
  · rfl
  · exact cmdWrite_legal (decode_encode .rst) s
  · exact cmdWrite_legal (decode_encode .rst) s

/-- R230: without a reset, all that a transaction can do in mode FAULTED is to set MPTR or to return a register's value. -/
theorem perform_faulted_cases {tr : Transaction} {s t : State} (hf : s.fault = true) (hr : ¬ Transaction.resets tr)
    (e : perform tr s = .next t) : t = s ∨ (∃ v, t = s.setMptr v) ∨ ∃ v, t = s.pushRead v := by
  rcases perform_next_cases e with ⟨i, hw, e⟩ | ⟨w, -, hf', -⟩ | h | h | h | ⟨rfl, -⟩
  · have hi : i ≠ .rst := by
      rintro rfl
      exact hr (.inr hw)
    rw [exec_faulted hf hi] at e
    exact .inl (Host.Outcome.next.inj e).symm
  · rw [hf] at hf'
    cases hf'
  · exact .inr (.inl h)
  · exact .inl h
  · exact .inr (.inr h)
  · exact absurd (.inl rfl) hr

/-- Settles O17: only the RST word decodes to RST, and neither MPTR nor a returned value touches the record of the fault. -/
theorem faultedModeKeepsTheFirstFault : Obligations.FaultedModeKeepsTheFirstFault := by
  refine fun s hf => ⟨fun w hw => cmdWrite_faulted hf fun hd => hw (eq_encode_of_decode hd), fun tr t hr e => ?_⟩
  rcases perform_faulted_cases hf hr e with rfl | ⟨v, rfl⟩ | ⟨v, rfl⟩ <;> exact ⟨hf, rfl, rfl⟩

/-- Settles O18: a transaction that clears FAULT is a reset, and a reset leaves the reset state. -/
theorem onlyResetLeavesFaultedMode : Obligations.OnlyResetLeavesFaultedMode := by
  intro s t tr hf e
  have hexit : t.fault = false → Transaction.resets tr := resets_of_perform_clears_fault e hf
  have hreset : Transaction.resets tr → t = s.resetEngine := fun hr =>
    Host.Outcome.next.inj (e.symm.trans (perform_of_resets hr s))
  refine ⟨⟨hexit, fun hr => by rw [hreset hr, State.resetEngine_fault]⟩, fun ht => ?_⟩
  rw [hreset (hexit ht)]
  exact ⟨rfl, rfl, rfl, rfl, rfl, rfl, rfl, rfl⟩

/-! Fault entry (R226, R228). -/

/-- R226: a command ends without a fault or in fault entry for its own word, taken in the state before it; for HASH it is ALLOC
and taken after the INIT sub-step. -/
theorem exec_fault_cases {i : Instr} {s t : State} (hf : s.fault = false) (e : exec i s = .next t) :
    t.fault = false ∨ (i ≠ .hash ∧ ∃ x, t = s.raise x (encode i)) ∨
      (i = .hash ∧ t = s.startState.raise .alloc (encode i)) := by
  rcases exec_cases e with ⟨-, -, rfl⟩ | ⟨-, rfl⟩ | ⟨-, h⟩
  · exact .inl hf
  · exact .inl rfl
  rcases h with ⟨-, rfl⟩ | ⟨b, -, -, rfl⟩ | ⟨b, rfl, -, rfl⟩ | ⟨-, rfl⟩ | ⟨b, -, -, rfl⟩ | ⟨b, -, -, rfl⟩ | ⟨-, rfl⟩ |
    ⟨-, -, rfl⟩ | ⟨rfl, -, rfl⟩ | ⟨rfl, -, rfl⟩ | ⟨rfl, -, -, rfl⟩ | ⟨-, -, -, rfl⟩ | ⟨rfl, -, rfl⟩ | ⟨-, -, rfl⟩ |
    ⟨-, -, rfl⟩ | ⟨rfl, -, rfl⟩ | ⟨-, rfl⟩
  · exact .inl hf
  · exact .inl hf
  · exact .inr (.inl ⟨nofun, .alloc, rfl⟩)
  · exact .inl hf
  · exact .inl hf
  · exact .inl hf
  · exact .inl hf
  · exact .inl hf
  · exact .inr (.inl ⟨nofun, .alloc, rfl⟩)
  · exact .inr (.inl ⟨nofun, .nostate, rfl⟩)
  · exact .inr (.inl ⟨nofun, .noblock, rfl⟩)
  · exact .inl hf
  · exact .inr (.inl ⟨nofun, .nostate, rfl⟩)
  · exact .inl hf
  · exact .inl ((hashedState_fault s).trans hf)
  · exact .inr (.inr ⟨rfl, rfl⟩)
  · exact .inl hf

/-- R226 for a word: an illegal one records ILLEGAL, a legal one is its command's. -/
theorem cmdWrite_fault_cases {w : Word} {s t : State} (hf : s.fault = false) (e : cmdWrite w s = .next t)
    (ht : t.fault = true) :
    (w ≠ encode .hash ∧ ∃ x, t = s.raise x w) ∨ (w = encode .hash ∧ t = s.startState.raise .alloc w) := by
  cases hd : decode w with
  | error r =>
    rw [cmdWrite_illegal hd hf] at e
    exact .inl ⟨fun hw => decode_ne_ok hd .hash (decode_eq_ok_iff.2 hw.symm), .illegal, (Host.Outcome.next.inj e).symm⟩
  | ok i =>
    rw [cmdWrite_legal hd] at e
    obtain rfl := eq_encode_of_decode hd
    rcases exec_fault_cases hf e with h | ⟨hi, h⟩ | ⟨rfl, h⟩
    · rw [h] at ht
      cases ht
    · exact .inl ⟨encode_injective.ne hi, h⟩
    · exact .inr ⟨rfl, h⟩

/-- Settles O19: fault entry is the only way into mode FAULTED, and it clears DV. -/
theorem faultEntryIsPrecise : Obligations.FaultEntryIsPrecise := by
  intro s t w hf e ht
  rcases cmdWrite_fault_cases hf e ht with ⟨hw, x, rfl⟩ | ⟨hw, rfl⟩
  · exact ⟨regRead_dig_eq_zero rfl, x, .inl ⟨hw, rfl⟩⟩
  · exact ⟨regRead_dig_eq_zero rfl, .alloc, .inr ⟨hw, rfl, rfl⟩⟩

/-! Which command raises which fault (R221). -/

/-- R33: the word a fault records is the command's. -/
theorem exec_fault_fcmd {i : Instr} {s t : State} (hf : s.fault = false) (e : exec i s = .next t) (ht : t.fault = true) :
    t.fcmd = encode i := by
  rcases exec_fault_cases hf e with h | ⟨-, x, rfl⟩ | ⟨-, rfl⟩
  · rw [h] at ht
    cases ht
  · rfl
  · rfl

section Outcomes

variable {i : Instr} {s t u : State} {P : Prop} {x : FaultCause} {w : Word}

theorem no_fault_of_outcome (hu : exec i s = .next u) (huf : u.fault = false) (e : exec i s = .next t) :
    t.fault = false := by
  rw [hu] at e
  exact Host.Outcome.next.inj e ▸ huf

/-- A command with two outcomes, fault entry where a condition holds, raises that fault exactly there. -/
theorem fault_iff_of_outcomes (hraise : P → exec i s = .next (u.raise x w))
    (hfinish : ¬ P → ∃ v, exec i s = .next v ∧ v.fault = false) (e : exec i s = .next t) :
    (t.fault = true ↔ P) ∧ (t.fault = true → t.cause = some x) := by
  by_cases h : P
  · rw [hraise h] at e
    cases e
    simp [h]
  · obtain ⟨v, hv, hvf⟩ := hfinish h
    simp [h, no_fault_of_outcome hv hvf e]

end Outcomes

/-- R225, R227: NOSTATE without a valid state, otherwise NOBLOCK without a whole block. -/
theorem exec_cblk_fault {s t : State} (hf : s.fault = false) (e : exec .cblk s = .next t) :
    (t.fault = true ↔ s.sv = false ∨ s.mlen.toNat < 64 * (s.blk.toNat + 1)) ∧
    (s.sv = false → t.cause = some .nostate) ∧ (s.sv = true → t.fault = true → t.cause = some .noblock) := by
  cases hsv : s.sv with
  | false =>
    rw [exec_cblk_nostate hf hsv] at e
    cases e
    simp
  | true =>
    have hblock := fault_iff_of_outcomes (exec_cblk_noblock hf hsv)
      (fun h => ⟨_, exec_cblk_block hf hsv (Nat.le_of_not_lt h), hf⟩) e
    simpa using hblock

/-- Settles O20: command by command, from its outcomes. -/
theorem faultsAreRaisedExactlyWhenTabled : Obligations.FaultsAreRaisedExactlyWhenTabled := by
  refine ⟨rfl, rfl, rfl, rfl, rfl, causeCode_lt, fun s hinv => hinv.fcmd_zero, fun s w => cmdWrite_of_not_legal,
    fun s t i hf e => ⟨exec_fault_fcmd hf e, ?_⟩⟩
  cases i with
  | mapp b =>
    exact fault_iff_of_outcomes (fun h => exec_mapp_full hf (Nat.le_of_lt_succ h) b)
      (fun h => ⟨_, exec_mapp_fits hf (Nat.lt_of_succ_le (Nat.le_of_not_lt h)) b, hf⟩) e
  | pad =>
    exact fault_iff_of_outcomes (fun h => exec_pad_full hf (by rwa [padTail_length]))
      (fun h => ⟨_, exec_pad_fits hf (by rw [padTail_length]; exact Nat.le_of_not_lt h), hf⟩) e
  | hash =>
    exact fault_iff_of_outcomes (exec_hash_full hf)
      (fun h => ⟨_, exec_hash_fits (Nat.le_of_not_lt h) hf, (hashedState_fault s).trans hf⟩) e
  | cblk => exact exec_cblk_fault hf e
  | enc =>
    exact fault_iff_of_outcomes (exec_enc_nostate hf)
      (fun h => ⟨_, exec_enc_state hf (Bool.eq_true_of_not_eq_false h), hf⟩) e
  | rst => exact no_fault_of_outcome (exec_rst s) rfl e
  | mclr => exact no_fault_of_outcome (exec_mclr hf) hf e
  | kclr => exact no_fault_of_outcome (exec_kclr hf) hf e
  | kapp b => exact no_fault_of_outcome (exec_kapp hf b) (by split <;> exact hf) e
  | init => exact no_fault_of_outcome (exec_init hf) hf e
  | hmac => exact no_fault_of_outcome (exec_hmac hf) hf e

end Sys2Proof.Machine
end
